-- ==== Sys2Proof/Word.lean ====
section
/-! DEFINITION. The words of the core: bytes, program counter words and register numbers (spec/00_scope.md R6). -/

namespace Sys2Proof

/-- u8: registers, memory cells, opcode and operand bytes, output values (R6, R8). -/
abbrev Byte := BitVec 8

/-- u9: the program counter, and the pc and detail of a fault record (R6, R21, R30). -/
abbrev PcWord := BitVec 9

/-- The number of a general register, 0 to 7 (R16). -/
abbrev Reg := Fin 8

end Sys2Proof
end

