-- ==== Sys2Proof/Config.lean ====
section
/-! DEFINITION. What the spec fixes for the implementation (spec/00_scope.md R6). The spec leaves no value open, so
there is no free value here: every parameter is a constant. -/

namespace Sys2Proof.Config

/-- NREGS: registers are numbered 0 to 7 (R6, R16). -/
def nregs : Nat := 8

/-- MEMSIZE: addresses 0 to 255 (R6, R41). -/
def memSize : Nat := 256

/-- SP_INDEX: the register whose value the stack manager uses (R6, R17). -/
def spIndex : Reg := 7

/-- The reset entry point (R36, R48). -/
def resetPc : PcWord := 0

/-- The bytes that every fetch reads, and the length of the longest instruction (R6, R86). -/
def fetchWindow : Nat := 3

/-- What a cell that no image byte and no write has set reads as: 0, by R36 and decision D7 of
spec/92_eei_decisions.md. UNVERIFIED (log entry 1), unsafe: hardware that leaves such cells undefined differs. -/
def unlistedByte : Byte := 0

end Sys2Proof.Config
end

