-- ==== Sys2Proof/Syntax.lean ====
section
/-! DEFINITION. The instructions of the core: one constructor per row of spec/opcode_table.json (spec/30_encoding.md R66). -/

namespace Sys2Proof

/-- The four formats (R64). -/
inductive Format where
  /-- One byte, no operand. -/
  | f0
  /-- Two bytes: opcode, register A. -/
  | f1r
  /-- Three bytes: opcode, register A, register B. -/
  | f2rr
  /-- Three bytes: opcode, register A, immediate. -/
  | f2ri
deriving DecidableEq, Repr

/-- An instruction with its operand bytes. A register operand is a WHOLE byte (R65 (a)); that it names one of the eight
registers is the check of WellFormed. Bytes a format ignores are no operands (R64, R68). -/
inductive Instr where
  /-- HLT (R157). -/
  | hlt
  /-- LDI rA,imm8 (R155). -/
  | ldi (a imm : Byte)
  /-- PRN rA (R156). -/
  | prn (a : Byte)
  /-- ADD rA,rB (R107). -/
  | add (a b : Byte)
  /-- MUL rA,rB (R108). -/
  | mul (a b : Byte)
  /-- CMP rA,rB (R110). -/
  | cmp (a b : Byte)
  /-- PUSH rA (R123). -/
  | push (a : Byte)
  /-- POP rA (R124). -/
  | pop (a : Byte)
  /-- CALL rA (R135). -/
  | call (a : Byte)
  /-- RET (R136). -/
  | ret
  /-- JMP rA (R137). -/
  | jmp (a : Byte)
  /-- JEQ rA (R138). -/
  | jeq (a : Byte)
  /-- JNE rA (R139). -/
  | jne (a : Byte)
deriving DecidableEq, Repr

/-- The format of each instruction (R64, R66). -/
def Instr.format : Instr → Format
  | .hlt => .f0
  | .ldi _ _ => .f2ri
  | .prn _ => .f1r
  | .add _ _ => .f2rr
  | .mul _ _ => .f2rr
  | .cmp _ _ => .f2rr
  | .push _ => .f1r
  | .pop _ => .f1r
  | .call _ => .f1r
  | .ret => .f0
  | .jmp _ => .f1r
  | .jeq _ => .f1r
  | .jne _ => .f1r

end Sys2Proof
end

