-- ==== Sys2Proof/WellFormed.lean ====
section
/-! DEFINITION. Which instruction terms are well formed: every register operand byte names one of the eight registers
(spec/30_encoding.md R65, spec/40_execution_cycle.md R89). -/

namespace Sys2Proof

/-- The register operand bytes of an instruction, in the order they are checked, A before B (R89). The immediate of LDI
is no register field. -/
def Instr.regBytes : Instr → List Byte
  | .hlt => []
  | .ldi a _ => [a]
  | .prn a => [a]
  | .add a b => [a, b]
  | .mul a b => [a, b]
  | .cmp a b => [a, b]
  | .push a => [a]
  | .pop a => [a]
  | .call a => [a]
  | .ret => []
  | .jmp a => [a]
  | .jeq a => [a]
  | .jne a => [a]

/-- A byte that names a register: 0 to 7, with no bit ignored (R65 (a)). -/
def validReg (b : Byte) : Bool := b.toNat < Config.nregs

/-- The register byte that the check of R89 reports: the first that names no register. -/
def Instr.firstBadReg (i : Instr) : Option Byte := i.regBytes.find? (fun b => !validReg b)

/-- Every register operand names a register. -/
def WellFormed (i : Instr) : Bool := i.regBytes.all validReg

end Sys2Proof
end

