-- ==== Sys2Proof/Decode.lean ====
section
/-! DEFINITION. The decoder and the encoder, from the opcode map of spec/30_encoding.md R66. -/

namespace Sys2Proof

/-! The thirteen opcode bytes (R66). -/

def Opc.hlt : Byte := 0b00000001
def Opc.ldi : Byte := 0b10000010
def Opc.prn : Byte := 0b01000111
def Opc.add : Byte := 0b10100000
def Opc.mul : Byte := 0b10100010
def Opc.cmp : Byte := 0b10100111
def Opc.push : Byte := 0b01000101
def Opc.pop : Byte := 0b01000110
def Opc.call : Byte := 0b01010000
def Opc.ret : Byte := 0b00010001
def Opc.jmp : Byte := 0b01010100
def Opc.jeq : Byte := 0b01010101
def Opc.jne : Byte := 0b01010110

/-- The opcode byte of each instruction (R66). -/
def Instr.opcode : Instr → Byte
  | .hlt => Opc.hlt
  | .ldi _ _ => Opc.ldi
  | .prn _ => Opc.prn
  | .add _ _ => Opc.add
  | .mul _ _ => Opc.mul
  | .cmp _ _ => Opc.cmp
  | .push _ => Opc.push
  | .pop _ => Opc.pop
  | .call _ => Opc.call
  | .ret => Opc.ret
  | .jmp _ => Opc.jmp
  | .jeq _ => Opc.jeq
  | .jne _ => Opc.jne

/-- The operand count AA, opcode bits 7:6 (R61). -/
def operandCount (ir : Byte) : Nat := (ir.extractLsb' 6 2).toNat

/-- The instruction length, from the opcode's bits and not from a table of handlers (R62). -/
def instrLen (ir : Byte) : Nat := operandCount ir + 1

/-- The PC policy, opcode bit 4: true where the handler sets pc itself (R63). -/
def handlerSetsPc (ir : Byte) : Bool := ir.getLsbD 4

/-- Why a decode is refused. -/
inductive DecodeError where
  /-- The opcode is none of the thirteen (R69, R88). -/
  | unknownOpcode (ir : Byte)
  /-- A register operand byte is above 7 (R89). -/
  | invalidRegister (b : Byte)
deriving DecidableEq, Repr

/-- The opcode map: all eight bits of `ir` select the row (R67); the row's format says which of the two candidate
operand bytes are operands (R64). -/
def lookup (ir opA opB : Byte) : Option Instr :=
  if ir = Opc.hlt then some .hlt
  else if ir = Opc.ldi then some (.ldi opA opB)
  else if ir = Opc.prn then some (.prn opA)
  else if ir = Opc.add then some (.add opA opB)
  else if ir = Opc.mul then some (.mul opA opB)
  else if ir = Opc.cmp then some (.cmp opA opB)
  else if ir = Opc.push then some (.push opA)
  else if ir = Opc.pop then some (.pop opA)
  else if ir = Opc.call then some (.call opA)
  else if ir = Opc.ret then some .ret
  else if ir = Opc.jmp then some (.jmp opA)
  else if ir = Opc.jeq then some (.jeq opA)
  else if ir = Opc.jne then some (.jne opA)
  else none

/-- Decode of the three fetched bytes: the opcode lookup (R88), then the register check, A before B (R89). -/
def decode (ir opA opB : Byte) : Except DecodeError Instr :=
  match lookup ir opA opB with
  | none => .error (.unknownOpcode ir)
  | some i =>
    match i.firstBadReg with
    | some b => .error (.invalidRegister b)
    | none => .ok i

/-- Decode of the bytes of a list, the first at the lowest address. The decoder looks at three bytes; one that lies past
the list's end is read as 0 (log entry 11). -/
def decodeList (bytes : List Byte) : Except DecodeError Instr :=
  decode (bytes.getD 0 0) (bytes.getD 1 0) (bytes.getD 2 0)

/-- The operand byte that names a register (R65 (a)). -/
def regByte (r : Reg) : Byte := BitVec.ofNat 8 r.val

/-- The bytes an instruction assembles to: its opcode byte, then the operand bytes of its format; ignored bytes are not
emitted (R60, R64, R72). -/
def encode : Instr → List Byte
  | .hlt => [Opc.hlt]
  | .ldi a imm => [Opc.ldi, a, imm]
  | .prn a => [Opc.prn, a]
  | .add a b => [Opc.add, a, b]
  | .mul a b => [Opc.mul, a, b]
  | .cmp a b => [Opc.cmp, a, b]
  | .push a => [Opc.push, a]
  | .pop a => [Opc.pop, a]
  | .call a => [Opc.call, a]
  | .ret => [Opc.ret]
  | .jmp a => [Opc.jmp, a]
  | .jeq a => [Opc.jeq, a]
  | .jne a => [Opc.jne, a]

/-- The thirteen opcode bytes in the table's order (R66). -/
def opcodes : List Byte :=
  [Opc.hlt, Opc.ldi, Opc.prn, Opc.add, Opc.mul, Opc.cmp, Opc.push, Opc.pop, Opc.call, Opc.ret, Opc.jmp, Opc.jeq, Opc.jne]

/-- A register operand in assembly notation, r0 to r7 (R72). -/
def asmReg (b : Byte) : String := "r" ++ toString b.toNat

/-- The assembly notation of an instruction: upper-case mnemonic, operands in encoding order, immediates in decimal (R72). -/
def Instr.asm : Instr → String
  | .hlt => "HLT"
  | .ldi a imm => "LDI " ++ asmReg a ++ "," ++ toString imm.toNat
  | .prn a => "PRN " ++ asmReg a
  | .add a b => "ADD " ++ asmReg a ++ "," ++ asmReg b
  | .mul a b => "MUL " ++ asmReg a ++ "," ++ asmReg b
  | .cmp a b => "CMP " ++ asmReg a ++ "," ++ asmReg b
  | .push a => "PUSH " ++ asmReg a
  | .pop a => "POP " ++ asmReg a
  | .call a => "CALL " ++ asmReg a
  | .ret => "RET"
  | .jmp a => "JMP " ++ asmReg a
  | .jeq a => "JEQ " ++ asmReg a
  | .jne a => "JNE " ++ asmReg a

/-- Byte `k` of an instruction whose bits, numbered as spec/opcode_table.json numbers them, are the low `nbits` of `w`
and zero above: the opcode byte is bits 7..0, the next byte bits 15..8, the third bits 23..16. -/
def tableByte (nbits w k : Nat) : Byte := BitVec.ofNat 8 (w % 2 ^ nbits / 256 ^ k)

/-- The three bytes of such an instruction, as they lie in memory from the lowest address. -/
def tableBytes (nbits w : Nat) : List Byte := [tableByte nbits w 0, tableByte nbits w 1, tableByte nbits w 2]

/-- The instruction the decoder reads from such bits; none where it refuses. -/
def decodeTableWord (nbits w : Nat) : Option Instr :=
  match decodeList (tableBytes nbits w) with
  | .ok i => some i
  | .error _ => none

end Sys2Proof
end

