-- ==== Sys2Proof/Machine/State.lean ====
section
/-! DEFINITION. The machine's state, all of it (spec/10_state.md R16 to R37), its reset value, and the reasons a step can
stop. -/

namespace Sys2Proof.Machine

/-- The three independent one-bit flags (R25). -/
structure Flags where
  /-- E, Equal. -/
  e : Bool
  /-- L, Less. -/
  l : Bool
  /-- G, Greater. -/
  g : Bool
deriving DecidableEq, Repr

/-- The fault kinds of the core (spec/60_exceptions.md R171). They are exceptions the machine TAKES: raising one is a next
state whose status is aborted. -/
inductive FaultKind where
  /-- Raised by decode for an opcode outside the map (R173). -/
  | unknownOpcode
  /-- Raised by the ALU for an operation other than ADD, MUL, CMP; no instruction requests one (R106, R175). -/
  | unsupportedALUOperation
  /-- Raised by the memory primitives above address 255; reached from fetch only (R174). -/
  | outOfBoundsMemoryAccess
  /-- Raised for a register operand byte above 7 (R172). -/
  | invalidRegister
deriving DecidableEq, Repr

/-- What `raise K(info)` carries before the fault is taken: the kind and the detail of R171's table. -/
structure Raise where
  kind : FaultKind
  detail : PcWord
deriving DecidableEq, Repr

/-- The fault record held in Aborted: kind, pc of the faulting instruction, detail (R180). -/
structure FaultRecord where
  kind : FaultKind
  pc : PcWord
  detail : PcWord
deriving DecidableEq, Repr

/-- The run status (R29). -/
inductive Status where
  /-- Instructions are being executed. -/
  | running
  /-- HLT was executed; terminal. -/
  | halted
  /-- A fault was raised; terminal. -/
  | aborted (record : FaultRecord)
deriving DecidableEq, Repr

/-- Everything the spec gives the machine (R37). -/
structure State where
  /-- x[0] to x[7]; x[7] is SP (R16, R17). -/
  regs : Vector Byte 8
  /-- The address of the next instruction to fetch, 9 bits (R20, R21). -/
  pc : PcWord
  /-- FL.E, FL.L, FL.G (R25). -/
  flags : Flags
  /-- Running, Halted or Aborted with the fault record (R29). -/
  status : Status
  /-- mem[0..255] in canonical form: addresses strictly rising, no cell equal to Config.unlistedByte (R32). -/
  mem : List Host.Cell
  /-- The output trace, oldest value first (R31). -/
  out : List Byte
deriving DecidableEq, Repr

/-- The machine right after reset with no image loaded: every value is R36's. A program image is loaded by `load`
(spec/70_reset_and_hazards.md R195, R198). -/
def State.reset : State where
  regs := Vector.replicate 8 0
  pc := Config.resetPc
  flags := { e := false, l := false, g := false }
  status := .running
  mem := []
  out := []

/-- Why there is no step. No instruction ends here: an exception is a next state with status aborted. -/
inductive Fault where
  /-- Answered by `step` alone, when status is Halted: no step exists (R85). Safe: nothing is claimed to happen. -/
  | halted
  /-- Answered by `step` alone, when status is Aborted: no step exists (R85). Safe: nothing is claimed to happen. -/
  | aborted (record : FaultRecord)
deriving DecidableEq, Repr

/-- Why an instruction has no meaning. -/
inductive Refusal where
  /-- Answered by `exec` for an instruction rejected by name. Safe. No arm of `exec` answers it: every instruction has
  its meaning. -/
  | notModelled (mnemonic : String)
deriving DecidableEq, Repr

end Sys2Proof.Machine
end

