-- ==== Sys2Proof/Machine/Ops.lean ====
section
/-! DEFINITION. The named operations over registers, pc, memory, stack and output, taking an exception, and the end of an
instruction (spec/20_memory.md R42 and R43, spec/42_stack.md R120 and R121, spec/40_execution_cycle.md R92,
spec/60_exceptions.md R181). -/

namespace Sys2Proof.Machine

/-! Memory as data. -/

/-- The byte at an address. -/
def Memory.get : List Host.Cell → Nat → Byte
  | [], _ => Config.unlistedByte
  | (k, v) :: rest, a => if k = a then v else Memory.get rest a

/-- List a cell at its place in the rising order of addresses, in place of one at the same address. -/
def Memory.insert (a : Nat) (v : Byte) : List Host.Cell → List Host.Cell
  | [] => [(a, v)]
  | (k, w) :: rest =>
    if a < k then (a, v) :: (k, w) :: rest
    else if a = k then (a, v) :: rest
    else (k, w) :: Memory.insert a v rest

/-- Unlist an address. -/
def Memory.erase (a : Nat) (m : List Host.Cell) : List Host.Cell := m.filter (fun c => c.1 != a)

/-- Write a byte, keeping the canonical form: the value an unlisted address reads as is not listed. -/
def Memory.set (m : List Host.Cell) (a : Nat) (v : Byte) : List Host.Cell :=
  if v = Config.unlistedByte then Memory.erase a m else Memory.insert a v m

/-- The canonical form: addresses strictly rising and within the address space, no cell that reads as an unlisted one. -/
abbrev Memory.wf (m : List Host.Cell) : Prop :=
  m.Pairwise (fun c d => c.1 < d.1) ∧ ∀ c ∈ m, c.1 < Config.memSize ∧ c.2 ≠ Config.unlistedByte

/-- Write consecutive bytes from an address upward; a byte whose address does not exist is dropped. -/
def Memory.store (m : List Host.Cell) (a : Nat) : List Byte → List Host.Cell
  | [] => m
  | b :: bs => Memory.store (if a < Config.memSize then Memory.set m a b else m) (a + 1) bs

/-! The memory primitives. -/

/-- `raise OutOfBoundsMemoryAccess(addr)` (R42, R43). -/
def outOfBounds (addr : Nat) : Raise := ⟨.outOfBoundsMemoryAccess, BitVec.ofNat 9 addr⟩

/-- MemRead(addr, 1) (R42). -/
def memRead (addr : Nat) (s : State) : Except Raise Byte :=
  if Config.memSize ≤ addr then .error (outOfBounds addr) else .ok (Memory.get s.mem addr)

/-- mem[addr] <- v. -/
def setByte (addr : Nat) (v : Byte) (s : State) : State := { s with mem := Memory.set s.mem addr v }

/-- MemWrite(addr, 1, v) (R43). -/
def memWrite (addr : Nat) (v : Byte) (s : State) : Except Raise State :=
  if Config.memSize ≤ addr then .error (outOfBounds addr) else .ok (setByte addr v s)

/-! Registers. -/

/-- x[r] (R16: no register is hardwired). -/
def readReg (r : Reg) (s : State) : Byte := s.regs.get r

/-- x[r] <- v (R19). -/
def writeReg (r : Reg) (v : Byte) (s : State) : State := { s with regs := s.regs.set r.val v r.isLt }

/-- SP is x[7] (R17). -/
def sp (s : State) : Byte := readReg Config.spIndex s

/-! The program counter. -/

/-- pc <- target. -/
def setPc (target : PcWord) (s : State) : State := { s with pc := target }

/-- A register or memory byte as a jump target: the same number, 0 to 255 (R140). -/
def targetOf (b : Byte) : PcWord := b.setWidth 9

/-- pc + n; exact for every pc that passed the fetch check (R21, R92; log entry 4). -/
def pcPlus (n : Nat) (s : State) : PcWord := BitVec.ofNat 9 (s.pc.toNat + n)

/-! The push/pop controller. -/

/-- SP - 1, wrapping 0 to 255 (R120). -/
def spDown (s : State) : Byte := BitVec.ofNat 8 ((sp s).toNat + 255)

/-- SP + 1, wrapping 255 to 0 (R121). -/
def spUp (s : State) : Byte := BitVec.ofNat 8 ((sp s).toNat + 1)

/-- The address a push writes to: SP after the decrement (R120). -/
def pushAddr (s : State) : Nat := (spDown s).toNat

/-- push(v) (R120). -/
def push (v : Byte) (s : State) : Except Raise State :=
  memWrite (pushAddr s) v (writeReg Config.spIndex (spDown s) s)

/-- pop(): the byte at SP, and the state with SP incremented (R121). The cell is not cleared. -/
def pop (s : State) : Except Raise (Byte × State) :=
  match memRead (sp s).toNat s with
  | .error e => .error e
  | .ok v => .ok (v, writeReg Config.spIndex (spUp s) s)

/-! Output and halt. -/

/-- emit(v): append to the output trace (R31, R156). -/
def emit (v : Byte) (s : State) : State := { s with out := s.out ++ [v] }

/-- status <- Halted (R157). -/
def halt (s : State) : State := { s with status := .halted }

/-! Exceptions and the end of an instruction. -/

/-- TAKING AN EXCEPTION (R180, R181, R183): status becomes Aborted with the kind, the pc of the step and the detail; x, FL,
pc, mem and out keep the values they had at the start of the step, which `s` is. There is no return from it (R184). -/
def takeException (e : Raise) (s : State) : State :=
  { s with status := .aborted { kind := e.kind, pc := s.pc, detail := e.detail } }

/-- The dispatcher's advance, after a handler that did not fault (R92). -/
def advance (ir : Byte) (s : State) : State :=
  if handlerSetsPc ir then s else setPc (pcPlus (instrLen ir) s) s

/-- How an instruction with opcode `ir`, begun in `s`, ends: its handler's result is advanced, or the exception it
raised is taken in `s`, with nothing the handler did kept (R92, R181). -/
def finish (ir : Byte) (s : State) (r : Except Raise State) : Host.Outcome State Fault Refusal :=
  match r with
  | .ok s' => .next (advance ir s')
  | .error e => .next (takeException e s)

/-! Loading. -/

/-- The reset state with a program image (R195, R198): byte i at address i, 0 above. An image of more than 256 bytes is
refused, and there is no run (R199). -/
def load (image : List Byte) : Option State :=
  if image.length ≤ Config.memSize then some { State.reset with mem := Memory.store [] 0 image } else none

end Sys2Proof.Machine
end

