-- ==== Sys2Proof/Machine/Operands.lean ====
section
/-! DEFINITION. The operand forms: register operands and the immediate (spec/30_encoding.md R65). There is no other: no
address, offset or displacement operand. -/

namespace Sys2Proof.Machine

/-- `raise InvalidRegister(index = b)` (R172). -/
def invalidRegister (b : Byte) : Raise := ⟨.invalidRegister, b.setWidth 9⟩

/-- A register operand: the whole byte is the index, and a byte above 7 raises InvalidRegister before the instruction has
any effect (R65 (a), R89). In a step, decode has made the same check already (log entry 5). -/
def regOperand (b : Byte) : Except Raise Reg :=
  if h : b.toNat < 8 then .ok ⟨b.toNat, h⟩ else .error (invalidRegister b)

/-- The immediate operand: the byte, unchanged (R65 (b)). -/
def immOperand (b : Byte) : Byte := b

end Sys2Proof.Machine
end

