-- ==== Sys2Proof/Machine/Flags.lean ====
section
/-! DEFINITION. The flags: what a comparison computes (spec/41_alu.md R110), their write, and the packed view
(spec/10_state.md R27). -/

namespace Sys2Proof.Machine

/-- All three flags from an unsigned comparison; the old flags have no part in it (R110). -/
def compareFlags (a b : Byte) : Flags :=
  { e := a.toNat == b.toNat, l := decide (a.toNat < b.toNat), g := decide (b.toNat < a.toNat) }

/-- FL <- f. -/
def setFlags (f : Flags) (s : State) : State := { s with flags := f }

/-- The packed view FL = 0b00000LGE: E bit 0, G bit 1, L bit 2, bits 7:3 zero (R27). No instruction reads it. -/
def packedFlags (f : Flags) : Byte :=
  BitVec.ofNat 8 ((if f.e then 1 else 0) + (if f.g then 2 else 0) + (if f.l then 4 else 0))

/-- The number of a fault kind (spec/60_exceptions.md R171). No program can observe it. -/
def faultCode : FaultKind → Nat
  | .unknownOpcode => 1
  | .unsupportedALUOperation => 2
  | .outOfBoundsMemoryAccess => 3
  | .invalidRegister => 4

end Sys2Proof.Machine
end

