-- ==== Sys2Proof/Machine/Alu.lean ====
section
/-! DEFINITION. The ALU and the family of ADD, MUL and CMP (spec/41_alu.md). -/

namespace Sys2Proof.Machine

/-- The operation requested of the ALU (R105, R106). -/
inductive AluOp where
  | add
  | mul
  | cmp
  /-- An operation outside the three, named by a code of the model's own. DESIGN CHOICE (log entry 6): no instruction
  requests one. -/
  | other (code : PcWord)
deriving DecidableEq, Repr

/-- The ALU's output: a byte for the first register, or the flag triple (R105). -/
inductive AluResult where
  | value (v : Byte)
  | flags (f : Flags)
deriving DecidableEq, Repr

/-- The ALU: exact arithmetic on unsigned bytes, narrowed to eight bits (R105, R107 to R110); a request outside ADD, MUL,
CMP raises UnsupportedALUOperation (R106). It reads and writes no state. -/
def alu (op : AluOp) (a b : Byte) : Except Raise AluResult :=
  match op with
  | .add => .ok (.value (BitVec.ofNat 8 (a.toNat + b.toNat)))
  | .mul => .ok (.value (BitVec.ofNat 8 (a.toNat * b.toNat)))
  | .cmp => .ok (.flags (compareFlags a b))
  | .other code => .error ⟨.unsupportedALUOperation, code⟩

/-- What a handler does with the ALU's output: a byte goes back into the first register, flags into FL (R105). -/
def writeAlu (ra : Reg) (r : AluResult) (s : State) : State :=
  match r with
  | .value v => writeReg ra v s
  | .flags f => setFlags f s

/-- The common handler: check both register operands, A before B (R89), ask the ALU, write its output. -/
def aluHandler (op : AluOp) (a b : Byte) (s : State) : Except Raise State := do
  let ra ← regOperand a
  let rb ← regOperand b
  let r ← alu op (readReg ra s) (readReg rb s)
  return writeAlu ra r s

/-- ADD (R107). -/
def execAdd (a b : Byte) (s : State) : Host.Outcome State Fault Refusal :=
  finish Opc.add s (aluHandler .add a b s)

/-- MUL (R108). -/
def execMul (a b : Byte) (s : State) : Host.Outcome State Fault Refusal :=
  finish Opc.mul s (aluHandler .mul a b s)

/-- CMP (R110). -/
def execCmp (a b : Byte) (s : State) : Host.Outcome State Fault Refusal :=
  finish Opc.cmp s (aluHandler .cmp a b s)

end Sys2Proof.Machine
end

