-- ==== Sys2Proof/Machine/Control.lean ====
section
/-! DEFINITION. The family of CALL, RET, JMP, JEQ and JNE (spec/43_control_flow.md). Their opcodes have bit 4 set, so each
handler writes pc on every path (spec/40_execution_cycle.md R93). -/

namespace Sys2Proof.Machine

/-- CALL (R135): the return address is pushed first, then the target is read. -/
def execCall (a : Byte) (s : State) : Host.Outcome State Fault Refusal :=
  finish Opc.call s do
    let ra ← regOperand a
    let s' ← push (BitVec.ofNat 8 (s.pc.toNat + instrLen Opc.call)) s
    return setPc (targetOf (readReg ra s')) s'

/-- RET (R136). -/
def execRet (s : State) : Host.Outcome State Fault Refusal :=
  finish Opc.ret s do
    let (v, s') ← pop s
    return setPc (targetOf v) s'

/-- JMP (R137). -/
def execJmp (a : Byte) (s : State) : Host.Outcome State Fault Refusal :=
  finish Opc.jmp s do
    let ra ← regOperand a
    return setPc (targetOf (readReg ra s)) s

/-- JEQ (R138): the register is checked on both paths. -/
def execJeq (a : Byte) (s : State) : Host.Outcome State Fault Refusal :=
  finish Opc.jeq s do
    let ra ← regOperand a
    return setPc (if s.flags.e then targetOf (readReg ra s) else pcPlus (instrLen Opc.jeq) s) s

/-- JNE (R139): the register is checked on both paths. -/
def execJne (a : Byte) (s : State) : Host.Outcome State Fault Refusal :=
  finish Opc.jne s do
    let ra ← regOperand a
    return setPc (if s.flags.e then pcPlus (instrLen Opc.jne) s else targetOf (readReg ra s)) s

end Sys2Proof.Machine
end

