-- ==== Sys2Proof/Machine/Stack.lean ====
section
/-! DEFINITION. The family of PUSH and POP (spec/42_stack.md). -/

namespace Sys2Proof.Machine

/-- PUSH (R123): the register is read before SP changes. -/
def execPush (a : Byte) (s : State) : Host.Outcome State Fault Refusal :=
  finish Opc.push s do
    let ra ← regOperand a
    push (readReg ra s) s

/-- POP (R124): the register is written after SP was incremented, so POP r7 ends with the popped byte. -/
def execPop (a : Byte) (s : State) : Host.Outcome State Fault Refusal :=
  finish Opc.pop s do
    let ra ← regOperand a
    let (v, s') ← pop s
    return writeReg ra v s'

end Sys2Proof.Machine
end

