-- ==== Sys2Proof/Machine/System.lean ====
section
/-! DEFINITION. The family of LDI, PRN and HLT (spec/44_load_output_halt.md). -/

namespace Sys2Proof.Machine

/-- LDI (R155). -/
def execLdi (a imm : Byte) (s : State) : Host.Outcome State Fault Refusal :=
  finish Opc.ldi s do
    let ra ← regOperand a
    return writeReg ra (immOperand imm) s

/-- PRN (R156). -/
def execPrn (a : Byte) (s : State) : Host.Outcome State Fault Refusal :=
  finish Opc.prn s do
    let ra ← regOperand a
    return emit (readReg ra s) s

/-- HLT (R157): the dispatcher still advances pc. -/
def execHlt (s : State) : Host.Outcome State Fault Refusal :=
  finish Opc.hlt s (.ok (halt s))

end Sys2Proof.Machine
end

