-- ==== Sys2Proof/Machine/Fetch.lean ====
section
/-! DEFINITION. Fetching and decoding the next instruction (spec/40_execution_cycle.md R86 to R89). -/

namespace Sys2Proof.Machine

/-- The three fetch reads, in order, for every instruction whatever its length (R86). The additions are exact: no wrap. -/
def fetch (s : State) : Except Raise (Byte × Byte × Byte) := do
  let ir ← memRead s.pc.toNat s
  let opA ← memRead (s.pc.toNat + 1) s
  let opB ← memRead (s.pc.toNat + 2) s
  return (ir, opA, opB)

/-- The exception that decode raises where it refuses (R88, R89), with the detail of spec/60_exceptions.md R171. -/
def decodeRaise : DecodeError → Raise
  | .unknownOpcode ir => ⟨.unknownOpcode, ir.setWidth 9⟩
  | .invalidRegister b => invalidRegister b

/-- Fetch, then decode (R94): the instruction at pc, or the exception that getting it raises. -/
def fetchDecode (s : State) : Except Raise Instr := do
  let (ir, opA, opB) ← fetch s
  match decode ir opA opB with
  | .ok i => return i
  | .error e => throw (decodeRaise e)

/-- The state with bytes placed from the address where the next fetch begins; a byte whose address does not exist is
dropped (log entry 12). -/
def placeAtPc (bytes : List Byte) (s : State) : State := { s with mem := Memory.store s.mem s.pc.toNat bytes }

end Sys2Proof.Machine
end

