-- ==== Sys2Proof/Machine/Step.lean ====
section
/-! DEFINITION. One step (spec/40_execution_cycle.md R94). -/

namespace Sys2Proof.Machine

/-- One step: none in Halted or Aborted (R85); else fetch and decode, whose exception is taken where they raise one, and
the instruction's meaning. -/
def step (s : State) : Host.Outcome State Fault Refusal :=
  match s.status with
  | .halted => .fault .halted
  | .aborted r => .fault (.aborted r)
  | .running =>
    match fetchDecode s with
    | .error e => .next (takeException e s)
    | .ok i => exec i s

/-- `s` with the instruction of these table bits stored in the three bytes at pc, which the next step fetches. -/
def State.withFetchWord (s : State) (nbits w : Nat) : State := placeAtPc (tableBytes nbits w) s

end Sys2Proof.Machine
end

