-- ==== Sys2Proof/Machine/Loop.lean ====
section
/-! DEFINITION. The execution loop and what the host observes of a run (spec/40_execution_cycle.md R97 to R99,
spec/70_reset_and_hazards.md R205 to R207). -/

namespace Sys2Proof.Machine

/-- How a bounded look at the loop ends. Out of fuel is an outcome of its own: the core has no step limit (R98). -/
inductive RunEnd where
  /-- Normal end: status Halted. -/
  | halted (s : State)
  /-- Abnormal end: status Aborted. -/
  | aborted (s : State)
  /-- The bound was reached while status = Running. -/
  | outOfFuel (s : State)
  /-- A step from Running that answers no next state; the model has none. -/
  | noNext (s : State)
deriving DecidableEq, Repr

/-- The loop for at most so many steps: repeat the step while status = Running (R97). -/
def runFor : Nat → State → RunEnd
  | 0, s =>
    match s.status with
    | .running => .outOfFuel s
    | .halted => .halted s
    | .aborted _ => .aborted s
  | n + 1, s =>
    match s.status with
    | .running =>
      match step s with
      | .next t => runFor n t
      | _ => .noNext s
    | .halted => .halted s
    | .aborted _ => .aborted s

/-- The observation at the end of a run: the whole state, and only in Halted or Aborted (R99, R205). -/
def observation (s : State) : Option State :=
  match s.status with
  | .running => none
  | .halted => some s
  | .aborted _ => some s

/-- Whether a run that has ended did so normally (R207). -/
def normalExit (s : State) : Option Bool :=
  match s.status with
  | .running => none
  | .halted => some true
  | .aborted _ => some false

/-- The lines the host prints for the output trace: each value as an unsigned decimal (R206). -/
def renderedOutput (s : State) : List String := s.out.map (fun v => toString v.toNat)

end Sys2Proof.Machine
end

