-- ==== Sys2Proof/Safety.lean ====
section
/-! DEFINITION. What counts as a safe state and a safe run, and the words the statements use: the invariant of the core,
frames, sequences of instructions, views that forget L and G. -/

namespace Sys2Proof.Machine

/-! Frames. -/

/-- Every register outside the list holds in `t` what it held in `s`. -/
def RegsSameExcept (rs : List Reg) (s t : State) : Prop := ∀ r, r ∉ rs → readReg r t = readReg r s

/-- Every byte of memory outside the listed addresses reads in `t` as in `s`. -/
def MemSameExcept (addrs : List Nat) (s t : State) : Prop := ∀ a, a ∉ addrs → Memory.get t.mem a = Memory.get s.mem a

/-! The invariant. -/

/-- At most one flag is set: (0,0,0) before the first CMP, exactly one after it (spec/10_state.md R28). -/
def Flags.legal (f : Flags) : Prop := ¬(f.e ∧ f.l) ∧ ¬(f.e ∧ f.g) ∧ ¬(f.l ∧ f.g)

/-- The fault record is one that the state it was taken in explains (spec/60_exceptions.md R171 to R175, R180). -/
def FaultRecord.legal (r : FaultRecord) (s : State) : Prop :=
  r.pc = s.pc ∧
  match r.kind with
  | .unknownOpcode =>
    s.pc.toNat ≤ 253 ∧ Memory.get s.mem s.pc.toNat ∉ opcodes ∧ r.detail.toNat = (Memory.get s.mem s.pc.toNat).toNat
  | .unsupportedALUOperation => False
  | .outOfBoundsMemoryAccess => 254 ≤ s.pc.toNat ∧ r.detail.toNat = 256
  | .invalidRegister =>
    s.pc.toNat ≤ 253 ∧ Memory.get s.mem s.pc.toNat ∈ opcodes ∧ 8 ≤ r.detail.toNat ∧
      (r.detail.toNat = (Memory.get s.mem (s.pc.toNat + 1)).toNat ∨ r.detail.toNat = (Memory.get s.mem (s.pc.toNat + 2)).toNat)

/-- The status is one a run can reach: HLT leaves pc at 1 to 254, and a fault record is legal. -/
def StatusLegal (s : State) : Prop :=
  match s.status with
  | .running => True
  | .halted => 1 ≤ s.pc.toNat ∧ s.pc.toNat ≤ 254
  | .aborted r => r.legal s

/-- The invariant of the core: memory in canonical form, pc in 0 to 256 (R21), legal flags (R28), legal status. -/
structure Inv (s : State) : Prop where
  mem : Memory.wf s.mem
  pc : s.pc.toNat ≤ 256
  flags : s.flags.legal
  status : StatusLegal s

/-- `Reaches s t`: `t` is `s` or comes from it by steps. -/
inductive Reaches (s : State) : State → Prop where
  | refl : Reaches s s
  | step (t u : State) : Reaches s t → Sys2Proof.Machine.step t = .next u → Reaches s u

/-- The state in which a fault has ended the run that was in `s`: only the status differs, and the record holds the kind,
the pc of `s` and the detail (R180, R181). -/
def abortedWith (kind : FaultKind) (detail : Nat) (s : State) : State :=
  { s with status := .aborted { kind := kind, pc := s.pc, detail := BitVec.ofNat 9 detail } }

/-- The three bytes a fetch below address 254 reads: the opcode and the two candidate operands (R86). -/
def irAt (s : State) : Byte := Memory.get s.mem s.pc.toNat
def opAAt (s : State) : Byte := Memory.get s.mem (s.pc.toNat + 1)
def opBAt (s : State) : Byte := Memory.get s.mem (s.pc.toNat + 2)

/-! Sequences. -/

/-- Instructions executed one after the other, each by its meaning, as long as each answers a next state. -/
def execSeq : List Instr → State → Host.Outcome State Fault Refusal
  | [], s => .next s
  | i :: is, s =>
    match exec i s with
    | .next t => execSeq is t
    | .fault r => .fault r
    | .refused r => .refused r

/-- Push every byte of a list, the first one first. -/
def pushAll : List Byte → State → Except Raise State
  | [], s => .ok s
  | v :: vs, s =>
    match push v s with
    | .ok t => pushAll vs t
    | .error e => .error e

/-- Pop so many bytes: the bytes in the order popped, and the state after. -/
def popAll : Nat → State → Except Raise (List Byte × State)
  | 0, s => .ok ([], s)
  | n + 1, s =>
    match pop s with
    | .error e => .error e
    | .ok (v, t) =>
      match popAll n t with
      | .error e => .error e
      | .ok (vs, u) => .ok (v :: vs, u)

/-! Forgetting the flags that no instruction reads. -/

/-- The state with L and G forgotten. -/
def eraseLG (s : State) : State := { s with flags := { s.flags with l := false, g := false } }

/-- An outcome with L and G forgotten in its next state. -/
def eraseLGOutcome : Host.Outcome State Fault Refusal → Host.Outcome State Fault Refusal
  | .next s => .next (eraseLG s)
  | .fault r => .fault r
  | .refused r => .refused r

/-! Safe runs. -/

/-- A state that no fault has ended. -/
def Safe (s : State) : Prop := ∀ r, s.status ≠ .aborted r

end Sys2Proof.Machine
end

