-- ==== Sys2Proof/Certificates/Slice0/Obligations.lean ====
section
/-! DEFINITION. The statements for the provers. Arithmetic is written over natural numbers, as the spec writes it, and not
with the model's own bit-vector expressions. A register operand is written regByte A for a register A, which ranges over
all eight; the bytes that name no register have statements of their own. The premise pc <= 253 is the condition under which
the spec lets an instruction execute at all (spec/40_execution_cycle.md R87, an inference of the spec from R42 and R86): the
states above it fault in the fetch and have a statement of their own. -/

open Sys2Proof Sys2Proof.Machine

/-! ## Encoding -/

/-- DECODE AND ENCODE AGREE (spec/30_encoding.md R60, R64, R66, R68): every well-formed instruction is read back from its
bytes, whatever bytes follow them. -/
def Obligations.DecodeOfEncodeIsTheInstruction : Prop :=
  ∀ (i : Instr) (rest : List Byte), WellFormed i → decodeList (encode i ++ rest) = .ok i

/-- Decode answers only well-formed instructions, and only for bytes that begin with their encoding: no opcode bit, register
bit or immediate bit is dropped (R65, R67). -/
def Obligations.DecodeAcceptsOnlyEncodings : Prop :=
  ∀ (ir a b : Byte) (i : Instr), decode ir a b = .ok i → WellFormed i ∧ encode i <+: [ir, a, b]

/-- The thirteen rows of the opcode map, each opcode byte written from R66, with every register and every ignored byte. -/
def Obligations.OpcodeMapRows : Prop :=
  ∀ (A B : Reg) (x y : Byte),
    decode 0b00000001 x y = .ok .hlt ∧
    decode 0b10000010 (regByte A) x = .ok (.ldi (regByte A) x) ∧
    decode 0b01000111 (regByte A) x = .ok (.prn (regByte A)) ∧
    decode 0b10100000 (regByte A) (regByte B) = .ok (.add (regByte A) (regByte B)) ∧
    decode 0b10100010 (regByte A) (regByte B) = .ok (.mul (regByte A) (regByte B)) ∧
    decode 0b10100111 (regByte A) (regByte B) = .ok (.cmp (regByte A) (regByte B)) ∧
    decode 0b01000101 (regByte A) x = .ok (.push (regByte A)) ∧
    decode 0b01000110 (regByte A) x = .ok (.pop (regByte A)) ∧
    decode 0b01010000 (regByte A) x = .ok (.call (regByte A)) ∧
    decode 0b00010001 x y = .ok .ret ∧
    decode 0b01010100 (regByte A) x = .ok (.jmp (regByte A)) ∧
    decode 0b01010101 (regByte A) x = .ok (.jeq (regByte A)) ∧
    decode 0b01010110 (regByte A) x = .ok (.jne (regByte A))

/-- R69: the 243 opcode values outside the map are illegal, whatever the operand bytes, and by operand count two, seven, four
and none of the values are defined; 0x00 is illegal. -/
def Obligations.OtherOpcodesAreUnknown : Prop :=
  (∀ ir a b : Byte, ir ∉ ([0x01, 0x82, 0x47, 0xA0, 0xA2, 0xA7, 0x45, 0x46, 0x50, 0x11, 0x54, 0x55, 0x56] : List Byte) →
    decode ir a b = .error (.unknownOpcode ir)) ∧
  ((List.range 256).filter (fun n => lookup (BitVec.ofNat 8 n) 0 0 = none)).length = 243 ∧
  ((List.range 256).filter (fun n => n / 64 = 0 ∧ lookup (BitVec.ofNat 8 n) 0 0 ≠ none)) = [0x01, 0x11] ∧
  ((List.range 256).filter (fun n => n / 64 = 1 ∧ lookup (BitVec.ofNat 8 n) 0 0 ≠ none)) =
    [0x45, 0x46, 0x47, 0x50, 0x54, 0x55, 0x56] ∧
  ((List.range 256).filter (fun n => n / 64 = 2 ∧ lookup (BitVec.ofNat 8 n) 0 0 ≠ none)) = [0x82, 0xA0, 0xA2, 0xA7] ∧
  ((List.range 256).filter (fun n => n / 64 = 3 ∧ lookup (BitVec.ofNat 8 n) 0 0 ≠ none)) = [] ∧
  (∀ a b : Byte, decode 0x00 a b = .error (.unknownOpcode 0x00))

/-- R62: the length is opcode bits 7:6 plus one, it is the length of the encoding, and an opcode whose bits 7:6 are 3 is
unknown, so no instruction has length 4. -/
def Obligations.LengthComesFromOpcodeBits : Prop :=
  (∀ ir : Byte, instrLen ir = ir.toNat / 64 + 1) ∧
  (∀ i : Instr, (encode i).length = i.opcode.toNat / 64 + 1 ∧ (encode i).length ≤ 3) ∧
  (∀ ir a b : Byte, ir.toNat / 64 = 3 → decode ir a b = .error (.unknownOpcode ir))

/-- R68: a byte the format marks ignored has no effect on the instruction; its fetch can still fault. That fault at 254 is
R87 (an inference of the spec from R42 and R86); its record and that nothing else changes are R180 and R181 (spec decisions D6
and D13, log entry 7). -/
def Obligations.IgnoredBytesHaveNoEffect : Prop :=
  (∀ ir ∈ ([0x01, 0x11] : List Byte), ∀ x y x' y' : Byte, decode ir x y = decode ir x' y') ∧
  (∀ ir ∈ ([0x47, 0x45, 0x46, 0x50, 0x54, 0x55, 0x56] : List Byte), ∀ a y y' : Byte, decode ir a y = decode ir a y') ∧
  (∀ s : State, s.status = .running → s.pc.toNat = 254 →
    step s = .next (abortedWith .outOfBoundsMemoryAccess 256 s))

/-- R89 (spec decision D3, log entry 7): every register field a format defines is checked at decode, A before B; the immediate
of LDI is not checked. -/
def Obligations.RegisterBytesAreCheckedAtDecode : Prop :=
  (∀ ir ∈ ([0x82, 0x47, 0x45, 0x46, 0x50, 0x54, 0x55, 0x56, 0xA0, 0xA2, 0xA7] : List Byte), ∀ a b : Byte, 7 < a.toNat →
    decode ir a b = .error (.invalidRegister a)) ∧
  (∀ ir ∈ ([0xA0, 0xA2, 0xA7] : List Byte), ∀ a b : Byte, a.toNat ≤ 7 → 7 < b.toNat →
    decode ir a b = .error (.invalidRegister b)) ∧
  (∀ a b : Byte, a.toNat ≤ 7 → decode 0x82 a b = .ok (.ldi a b))

/-! ## The instructions: encoding, result, completion and frame -/

/-- R107, ADD. -/
def Obligations.AddWritesTheSumMod256 : Prop :=
  ∀ (A B : Reg) (s : State), s.pc.toNat ≤ 253 →
    encode (.add (regByte A) (regByte B)) = [0xA0, regByte A, regByte B] ∧
    decode 0xA0 (regByte A) (regByte B) = .ok (.add (regByte A) (regByte B)) ∧
    ∃ t, exec (.add (regByte A) (regByte B)) s = .next t ∧
      (readReg A t).toNat = ((readReg A s).toNat + (readReg B s).toNat) % 256 ∧
      t.pc.toNat = s.pc.toNat + 3 ∧
      RegsSameExcept [A] s t ∧ MemSameExcept [] s t ∧ t.flags = s.flags ∧ t.status = s.status ∧ t.out = s.out

/-- R108, MUL. -/
def Obligations.MulWritesTheProductMod256 : Prop :=
  ∀ (A B : Reg) (s : State), s.pc.toNat ≤ 253 →
    encode (.mul (regByte A) (regByte B)) = [0xA2, regByte A, regByte B] ∧
    decode 0xA2 (regByte A) (regByte B) = .ok (.mul (regByte A) (regByte B)) ∧
    ∃ t, exec (.mul (regByte A) (regByte B)) s = .next t ∧
      (readReg A t).toNat = ((readReg A s).toNat * (readReg B s).toNat) % 256 ∧
      t.pc.toNat = s.pc.toNat + 3 ∧
      RegsSameExcept [A] s t ∧ MemSameExcept [] s t ∧ t.flags = s.flags ∧ t.status = s.status ∧ t.out = s.out

/-- R110, CMP: all three flags are written from the unsigned comparison, whatever they held, and exactly one becomes 1; no
register is written. -/
def Obligations.CmpWritesAllThreeFlags : Prop :=
  ∀ (A B : Reg) (s : State), s.pc.toNat ≤ 253 →
    encode (.cmp (regByte A) (regByte B)) = [0xA7, regByte A, regByte B] ∧
    decode 0xA7 (regByte A) (regByte B) = .ok (.cmp (regByte A) (regByte B)) ∧
    ∃ t, exec (.cmp (regByte A) (regByte B)) s = .next t ∧
      (t.flags.e = true ↔ (readReg A s).toNat = (readReg B s).toNat) ∧
      (t.flags.l = true ↔ (readReg A s).toNat < (readReg B s).toNat) ∧
      (t.flags.g = true ↔ (readReg A s).toNat > (readReg B s).toNat) ∧
      ((t.flags.e, t.flags.l, t.flags.g) ∈ [(true, false, false), (false, true, false), (false, false, true)]) ∧
      t.pc.toNat = s.pc.toNat + 3 ∧
      RegsSameExcept [] s t ∧ MemSameExcept [] s t ∧ t.status = s.status ∧ t.out = s.out

/-- R120 and R123, PUSH. The pushed value is the register's before SP changes, for r7 too (spec decision D8); SP wraps (spec
decision D2): both log entry 7. -/
def Obligations.PushStoresBelowTheStackPointer : Prop :=
  ∀ (A : Reg) (s : State), s.pc.toNat ≤ 253 →
    encode (.push (regByte A)) = [0x45, regByte A] ∧
    (∀ x, decode 0x45 (regByte A) x = .ok (.push (regByte A))) ∧
    ∃ t, exec (.push (regByte A)) s = .next t ∧
      pushAddr s = ((readReg 7 s).toNat + 255) % 256 ∧
      (readReg 7 t).toNat = pushAddr s ∧
      Memory.get t.mem (pushAddr s) = readReg A s ∧
      t.pc.toNat = s.pc.toNat + 2 ∧
      RegsSameExcept [7] s t ∧ MemSameExcept [pushAddr s] s t ∧
      t.flags = s.flags ∧ t.status = s.status ∧ t.out = s.out

/-- R121 and R124, POP. For POP r7 the popped byte wins over the increment (spec decision D10); SP wraps (spec decision D2):
both log entry 7. -/
def Obligations.PopLoadsFromTheStackPointer : Prop :=
  ∀ (A : Reg) (s : State), s.pc.toNat ≤ 253 →
    encode (.pop (regByte A)) = [0x46, regByte A] ∧
    (∀ x, decode 0x46 (regByte A) x = .ok (.pop (regByte A))) ∧
    ∃ t, exec (.pop (regByte A)) s = .next t ∧
      readReg A t = Memory.get s.mem (readReg 7 s).toNat ∧
      (A ≠ 7 → (readReg 7 t).toNat = ((readReg 7 s).toNat + 1) % 256) ∧
      t.pc.toNat = s.pc.toNat + 2 ∧
      RegsSameExcept [A, 7] s t ∧ MemSameExcept [] s t ∧
      t.flags = s.flags ∧ t.status = s.status ∧ t.out = s.out

/-- R135, CALL. The return address is pc + 2; the target is read after the push, so CALL r7 goes to the decremented SP (spec
decision D9, log entry 7). -/
def Obligations.CallPushesTheReturnAddress : Prop :=
  ∀ (A : Reg) (s : State), s.pc.toNat ≤ 253 →
    encode (.call (regByte A)) = [0x50, regByte A] ∧
    (∀ x, decode 0x50 (regByte A) x = .ok (.call (regByte A))) ∧
    ∃ t, exec (.call (regByte A)) s = .next t ∧
      pushAddr s = ((readReg 7 s).toNat + 255) % 256 ∧
      (readReg 7 t).toNat = pushAddr s ∧
      (Memory.get t.mem (pushAddr s)).toNat = s.pc.toNat + 2 ∧
      (A ≠ 7 → t.pc.toNat = (readReg A s).toNat) ∧
      (A = 7 → t.pc.toNat = ((readReg 7 s).toNat + 255) % 256) ∧
      RegsSameExcept [7] s t ∧ MemSameExcept [pushAddr s] s t ∧
      t.flags = s.flags ∧ t.status = s.status ∧ t.out = s.out

/-- R121 and R136, RET. SP wraps (spec decision D2, log entry 7). -/
def Obligations.RetPopsTheProgramCounter : Prop :=
  ∀ s : State,
    encode .ret = [0x11] ∧
    (∀ x y, decode 0x11 x y = .ok .ret) ∧
    ∃ t, exec .ret s = .next t ∧
      t.pc.toNat = (Memory.get s.mem (readReg 7 s).toNat).toNat ∧
      (readReg 7 t).toNat = ((readReg 7 s).toNat + 1) % 256 ∧
      RegsSameExcept [7] s t ∧ MemSameExcept [] s t ∧
      t.flags = s.flags ∧ t.status = s.status ∧ t.out = s.out

/-- R137, JMP: any target is accepted, and a jump to its own address changes nothing. -/
def Obligations.JmpGoesToTheRegister : Prop :=
  ∀ (A : Reg) (s : State),
    encode (.jmp (regByte A)) = [0x54, regByte A] ∧
    (∀ x, decode 0x54 (regByte A) x = .ok (.jmp (regByte A))) ∧
    (∃ t, exec (.jmp (regByte A)) s = .next t ∧
      t.pc.toNat = (readReg A s).toNat ∧
      RegsSameExcept [] s t ∧ MemSameExcept [] s t ∧
      t.flags = s.flags ∧ t.status = s.status ∧ t.out = s.out) ∧
    ((readReg A s).toNat = s.pc.toNat → exec (.jmp (regByte A)) s = .next s)

/-- R138, JEQ, with the register check on both paths. That a byte above 7 takes InvalidRegister is R89 (spec decision D3), the
record and that nothing else changes are R180 and R181 (spec decisions D6 and D13): log entry 7. That exec makes the check itself,
outside a step, is the model's (log entry 5, DEDUCED). -/
def Obligations.JeqJumpsOnlyOnEqual : Prop :=
  ∀ s : State, s.pc.toNat ≤ 253 →
    (∀ A : Reg,
      encode (.jeq (regByte A)) = [0x55, regByte A] ∧
      (∀ x, decode 0x55 (regByte A) x = .ok (.jeq (regByte A))) ∧
      ∃ t, exec (.jeq (regByte A)) s = .next t ∧
        t.pc.toNat = (if s.flags.e = true then (readReg A s).toNat else s.pc.toNat + 2) ∧
        RegsSameExcept [] s t ∧ MemSameExcept [] s t ∧
        t.flags = s.flags ∧ t.status = s.status ∧ t.out = s.out) ∧
    (∀ a : Byte, 7 < a.toNat → exec (.jeq a) s = .next (abortedWith .invalidRegister a.toNat s))

/-- R139, JNE, with the register check on both paths. That a byte above 7 takes InvalidRegister is R89 (spec decision D3), the
record and that nothing else changes are R180 and R181 (spec decisions D6 and D13): log entry 7. That exec makes the check itself,
outside a step, is the model's (log entry 5, DEDUCED). -/
def Obligations.JneJumpsOnlyOnNotEqual : Prop :=
  ∀ s : State, s.pc.toNat ≤ 253 →
    (∀ A : Reg,
      encode (.jne (regByte A)) = [0x56, regByte A] ∧
      (∀ x, decode 0x56 (regByte A) x = .ok (.jne (regByte A))) ∧
      ∃ t, exec (.jne (regByte A)) s = .next t ∧
        t.pc.toNat = (if s.flags.e = false then (readReg A s).toNat else s.pc.toNat + 2) ∧
        RegsSameExcept [] s t ∧ MemSameExcept [] s t ∧
        t.flags = s.flags ∧ t.status = s.status ∧ t.out = s.out) ∧
    (∀ a : Byte, 7 < a.toNat → exec (.jne a) s = .next (abortedWith .invalidRegister a.toNat s))

/-- R155, LDI: the byte is loaded unchanged, whatever it is, into any register. -/
def Obligations.LdiLoadsTheImmediate : Prop :=
  ∀ (A : Reg) (imm : Byte) (s : State), s.pc.toNat ≤ 253 →
    encode (.ldi (regByte A) imm) = [0x82, regByte A, imm] ∧
    decode 0x82 (regByte A) imm = .ok (.ldi (regByte A) imm) ∧
    ∃ t, exec (.ldi (regByte A) imm) s = .next t ∧
      readReg A t = imm ∧
      t.pc.toNat = s.pc.toNat + 3 ∧
      RegsSameExcept [A] s t ∧ MemSameExcept [] s t ∧ t.flags = s.flags ∧ t.status = s.status ∧ t.out = s.out

/-- R156, PRN: exactly one value is appended to the output. -/
def Obligations.PrnEmitsTheRegister : Prop :=
  ∀ (A : Reg) (s : State), s.pc.toNat ≤ 253 →
    encode (.prn (regByte A)) = [0x47, regByte A] ∧
    (∀ x, decode 0x47 (regByte A) x = .ok (.prn (regByte A))) ∧
    ∃ t, exec (.prn (regByte A)) s = .next t ∧
      t.out = s.out ++ [readReg A s] ∧
      t.pc.toNat = s.pc.toNat + 2 ∧
      RegsSameExcept [] s t ∧ MemSameExcept [] s t ∧ t.flags = s.flags ∧ t.status = s.status

/-- R157, HLT: Halted, pc one further, no later step; at address 254 or 255 it faults in the fetch and does not halt. That
the missing step is answered by the host's fault named halted is the model's choice (log entry 2, DESIGN CHOICE). The fetch fault
is R87 (an inference of the spec); its record and that nothing else changes are R180 and R181 (spec decisions D6 and D13, log
entry 7). -/
def Obligations.HltHaltsAndAdvances : Prop :=
  ∀ s : State,
    encode .hlt = [0x01] ∧
    (∀ x y, decode 0x01 x y = .ok .hlt) ∧
    (s.pc.toNat ≤ 253 →
      ∃ t, exec .hlt s = .next t ∧
        t.status = .halted ∧
        t.pc.toNat = s.pc.toNat + 1 ∧
        step t = .fault .halted ∧
        RegsSameExcept [] s t ∧ MemSameExcept [] s t ∧ t.flags = s.flags ∧ t.out = s.out) ∧
    (s.status = .running → s.pc.toNat = 254 ∨ s.pc.toNat = 255 → irAt s = 0x01 →
      step s = .next (abortedWith .outOfBoundsMemoryAccess 256 s))

/-- An instruction with a register byte above 7 has no effect but to take InvalidRegister, reporting that byte, A before B
(R172, spec decision D3, log entry 7). The record and that nothing else changes are R180 and R181 (spec decisions D6 and D13, log
entry 7). That exec makes the check itself, outside a step, is the model's (log entry 5, DEDUCED). -/
def Obligations.InvalidRegisterIsTaken : Prop :=
  ∀ (a b : Byte) (s : State),
    (7 < a.toNat → ∀ i ∈ [Instr.ldi a b, .prn a, .add a b, .mul a b, .cmp a b, .push a, .pop a, .call a, .jmp a, .jeq a, .jne a],
      exec i s = .next (abortedWith .invalidRegister a.toNat s)) ∧
    (a.toNat ≤ 7 → 7 < b.toNat → ∀ i ∈ [Instr.add a b, .mul a b, .cmp a b],
      exec i s = .next (abortedWith .invalidRegister b.toNat s))

/-! ## The step, faults and their order -/

/-- A STEP RUNS THE DECODED INSTRUCTION (R91, R94): nothing is done around exec. -/
def Obligations.StepRunsTheDecodedInstruction : Prop :=
  ∀ (s : State) (i : Instr), s.status = .running → s.pc.toNat ≤ 253 →
    decode (irAt s) (opAAt s) (opBAt s) = .ok i → step s = exec i s

/-- A step exists only when status = Running (R85), and then it always answers a next state; no state is refused. Where R85
says that no step exists, the interface answers the host's fault of that name: the model's choice (log entry 2, DESIGN
CHOICE). -/
def Obligations.AStepExistsOnlyWhenRunning : Prop :=
  ∀ s : State,
    ((∃ t, step s = .next t) ↔ s.status = .running) ∧
    (s.status = .halted → step s = .fault .halted) ∧
    (∀ r, s.status = .aborted r → step s = .fault (.aborted r)) ∧
    (∀ r, step s ≠ .refused r)

/-- The fetch faults (R87, an inference of the spec from R42 and R86; pc does not wrap by spec decision D1): from 254 up the
first fetch address above 255 is reported, which is 256 for every pc a run reaches. The record and that nothing else changes are
R180 and R181 (spec decisions D6 and D13, log entry 7). pc 257 to 511, which no run reaches, is the model's choice (log entry 4,
DESIGN CHOICE). -/
def Obligations.FetchAboveTheTopFaults : Prop :=
  ∀ s : State, s.status = .running → 254 ≤ s.pc.toNat →
    step s = .next (abortedWith .outOfBoundsMemoryAccess (max 256 s.pc.toNat) s)

/-- An opcode outside the map, fetched at 0 to 253, takes UnknownOpcode with the opcode and the pc (R88, R173). The record's
form and that nothing else changes are R180 and R181 (spec decisions D6 and D13, log entry 7). -/
def Obligations.UnknownOpcodeIsTaken : Prop :=
  ∀ s : State, s.status = .running → s.pc.toNat ≤ 253 →
    irAt s ∉ ([0x01, 0x82, 0x47, 0xA0, 0xA2, 0xA7, 0x45, 0x46, 0x50, 0x11, 0x54, 0x55, 0x56] : List Byte) →
    step s = .next (abortedWith .unknownOpcode (irAt s).toNat s)

/-- The order of the checks of one step (R182 and R94, spec decisions D1 and D3, log entry 7): fetch, opcode, register A,
register B, and only then the instruction. The records and that nothing else changes are R180 and R181 (spec decisions D6 and D13,
log entry 7). -/
def Obligations.FaultsAreReportedInOrder : Prop :=
  ∀ s : State, s.status = .running → s.pc.toNat ≤ 256 →
    if 254 ≤ s.pc.toNat then step s = .next (abortedWith .outOfBoundsMemoryAccess 256 s)
    else if irAt s ∉ opcodes then step s = .next (abortedWith .unknownOpcode (irAt s).toNat s)
    else if irAt s ∉ ([0x01, 0x11] : List Byte) ∧ 7 < (opAAt s).toNat then
      step s = .next (abortedWith .invalidRegister (opAAt s).toNat s)
    else if irAt s ∈ ([0xA0, 0xA2, 0xA7] : List Byte) ∧ 7 < (opBAt s).toNat then
      step s = .next (abortedWith .invalidRegister (opBAt s).toNat s)
    else ∃ i, decode (irAt s) (opAAt s) (opBAt s) = .ok i ∧ i.opcode = irAt s ∧ step s = exec i s

/-- Faults are precise (R181, spec decision D13, log entry 7): a step that ends in Aborted changed nothing but the status, and
the record's pc is the pc at its start (R180, spec decision D6, log entry 7). -/
def Obligations.FaultsArePrecise : Prop :=
  ∀ (s t : State) (r : FaultRecord), step s = .next t → t.status = .aborted r →
    t = { s with status := .aborted r } ∧ r.pc = s.pc

/-- R29: only HLT moves status to Halted, only a fault moves it to Aborted, and no step moves it back to Running. -/
def Obligations.OnlyHltHaltsAndOnlyFaultsAbort : Prop :=
  (∀ s t : State, step s = .next t → t.status = .halted → s.pc.toNat ≤ 253 ∧ irAt s = 0x01) ∧
  (∀ (s t : State) (r : FaultRecord), step s = .next t → t.status = .aborted r →
    254 ≤ s.pc.toNat ∨ ∃ e, decode (irAt s) (opAAt s) (opBAt s) = .error e) ∧
  (∀ s t : State, s.status ≠ .running → step s ≠ .next t)

/-- The ALU raises UnsupportedALUOperation for a request outside ADD, MUL and CMP (R106), and no step ever takes that fault
(R175; spec decision D18). The code that stands for another request is the model's own (log entry 6). -/
def Obligations.UnsupportedAluOperationIsNeverTaken : Prop :=
  (∀ (code : PcWord) (a b : Byte), alu (.other code) a b = .error ⟨.unsupportedALUOperation, code⟩) ∧
  (∀ (s t : State) (r : FaultRecord), step s = .next t → t.status = .aborted r → r.kind ≠ .unsupportedALUOperation)

/-- R92: after a handler that did not fault, the pc is advanced by the length that opcode bits 7:6 give where bit 4 is 0, HLT
included, and is left as the handler set it where bit 4 is 1; and so every well-formed instruction advances by its length or is
one of the five control transfers (R93), whose pc is at most 255. -/
def Obligations.PcPolicyFollowsOpcodeBits : Prop :=
  (∀ (ir : Byte) (s u : State), u.pc.toNat ≤ 253 →
    (ir.toNat / 16 % 2 = 0 →
      ∃ t, finish ir s (.ok u) = .next t ∧ t.pc.toNat = u.pc.toNat + (ir.toNat / 64 + 1) ∧ t = { u with pc := t.pc }) ∧
    (ir.toNat / 16 % 2 = 1 → finish ir s (.ok u) = .next u)) ∧
  (∀ (i : Instr) (s : State), WellFormed i → s.pc.toNat ≤ 253 →
    ∃ t, exec i s = .next t ∧
      (i.opcode.toNat / 16 % 2 = 0 → t.pc.toNat = s.pc.toNat + (i.opcode.toNat / 64 + 1)) ∧
      (i.opcode.toNat / 16 % 2 = 1 →
        t.pc.toNat ≤ 255 ∧ i.opcode ∈ ([0x50, 0x11, 0x54, 0x55, 0x56] : List Byte)))

/-! ## Memory and the stack -/

/-- The memory primitives (R42, R43). A read changes nothing (it answers no state); a write changes one cell. The detail has
nine bits (spec decision D6), so an address above 511, which no pc gives, is recorded mod 512: the model's choice (log entry 4,
DESIGN CHOICE). -/
def Obligations.MemoryPrimitives : Prop :=
  ∀ (a : Nat) (v : Byte) (s : State),
    (a > 255 → memRead a s = .error ⟨.outOfBoundsMemoryAccess, BitVec.ofNat 9 a⟩ ∧
      memWrite a v s = .error ⟨.outOfBoundsMemoryAccess, BitVec.ofNat 9 a⟩) ∧
    (a ≤ 255 → memRead a s = .ok (Memory.get s.mem a) ∧
      ∃ t, memWrite a v s = .ok t ∧ Memory.get t.mem a = v ∧ MemSameExcept [a] s t ∧ t = { s with mem := t.mem })

/-- Only PUSH and CALL write memory, and each at most the one byte below SP (R44, an inference of the spec). -/
def Obligations.OnlyPushAndCallWriteMemory : Prop :=
  ∀ (i : Instr) (s t : State) (a : Nat), exec i s = .next t → Memory.get t.mem a ≠ Memory.get s.mem a →
    a = pushAddr s ∧ ∃ x, i = .push x ∨ i = .call x

/-- Last in, first out (R125, an inference of the spec): up to 256 bytes pushed come back in the opposite order, with SP and
everything but memory as before, from any state. SP wraps (spec decision D2, log entry 7). -/
def Obligations.StackIsLastInFirstOut : Prop :=
  ∀ (vs : List Byte) (s : State), vs.length ≤ 256 →
    ∃ t u, pushAll vs s = .ok t ∧ popAll vs.length t = .ok (vs.reverse, u) ∧ u = { s with mem := u.mem }

/-- PUSH A; PUSH B; POP C; POP D with registers other than r7: C gets B's value and D gets A's, and SP is back (R125). SP
wraps (spec decision D2, log entry 7). -/
def Obligations.PushPushPopPop : Prop :=
  ∀ (A B C D : Reg) (s : State), A ≠ 7 → B ≠ 7 → C ≠ 7 → D ≠ 7 →
    ∃ t, execSeq [.push (regByte A), .push (regByte B), .pop (regByte C), .pop (regByte D)] s = .next t ∧
      readReg D t = readReg A s ∧ (C ≠ D → readReg C t = readReg B s) ∧
      RegsSameExcept [C, D] s t ∧ t.status = s.status

/-- CALL then RET resumes at the instruction after the CALL, provided the subroutine leaves SP and the return byte as it
found them (R142). That SP is back, and every case with SP = 0 before the CALL, rest on R120 and R121 with the wrap of SP (spec
decision D2, log entry 7). -/
def Obligations.CallThenRetRoundTrips : Prop :=
  ∀ (A : Reg) (s t u : State), s.pc.toNat ≤ 253 → exec (.call (regByte A)) s = .next t →
    readReg 7 u = readReg 7 t → Memory.get u.mem (readReg 7 t).toNat = Memory.get t.mem (readReg 7 t).toNat →
    ∃ v, exec .ret u = .next v ∧ v.pc.toNat = s.pc.toNat + 2 ∧ readReg 7 v = readReg 7 s

/-- A pushed byte is seen by the next fetch (R53, R209; P10 of spec/95_test_vectors.md is an instance): a PUSH whose stack
address is the opcode byte of the next instruction makes the next step run what was pushed. -/
def Obligations.PushedBytesAreFetchedAtOnce : Prop :=
  ∀ (A : Reg) (s : State) (i : Instr), s.status = .running → s.pc.toNat ≤ 251 →
    irAt s = 0x45 → opAAt s = regByte A → pushAddr s = s.pc.toNat + 2 →
    decode (readReg A s) (Memory.get s.mem (s.pc.toNat + 3)) (Memory.get s.mem (s.pc.toNat + 4)) = .ok i →
    ∃ t, step s = .next t ∧ step t = exec i t

/-! ## Flags and output -/

/-- R26: the flags persist across every instruction but CMP; they are all 0 at reset; with reset flags JEQ falls through and
JNE jumps. -/
def Obligations.FlagsPersistAcrossOtherInstructions : Prop :=
  (∀ (i : Instr) (s t : State), (∀ a b, i ≠ .cmp a b) → exec i s = .next t → t.flags = s.flags) ∧
  State.reset.flags = { e := false, l := false, g := false } ∧
  (∀ (A : Reg) (s : State), s.pc.toNat ≤ 253 → s.flags = State.reset.flags →
    (∃ t, exec (.jeq (regByte A)) s = .next t ∧ t.pc.toNat = s.pc.toNat + 2) ∧
    (∃ t, exec (.jne (regByte A)) s = .next t ∧ t.pc.toNat = (readReg A s).toNat))

/-- No instruction reads L or G (R25): two states that differ in L and G alone take steps whose outcomes differ in L and G at
most. -/
def Obligations.NothingReadsLessOrGreater : Prop :=
  ∀ s s' : State, eraseLG s = eraseLG s' → eraseLGOutcome (step s) = eraseLGOutcome (step s')

/-- R31: the output is empty at reset, only PRN changes it, and it appends one value at the end. -/
def Obligations.OutputGrowsOnlyByPrn : Prop :=
  State.reset.out = [] ∧
  ∀ (i : Instr) (s t : State), exec i s = .next t →
    t.out = s.out ∨ ∃ A : Reg, i = .prn (regByte A) ∧ t.out = s.out ++ [readReg A s]

/-- The packed view of the flags is 0b00000LGE (R27, spec decision D4, log entry 7). -/
def Obligations.PackedFlagsLayout : Prop :=
  ∀ f : Flags,
    (packedFlags f).getLsbD 0 = f.e ∧ (packedFlags f).getLsbD 1 = f.g ∧ (packedFlags f).getLsbD 2 = f.l ∧
    (packedFlags f).toNat < 8

/-! ## Reset, loading, invariants, runs -/

/-- What reset leaves (R36, R195, R201): registers, SP included, pc and flags 0, Running, no output. -/
def Obligations.ResetState : Prop :=
  (∀ r, readReg r State.reset = 0) ∧ State.reset.pc = 0 ∧
  State.reset.flags.e = false ∧ State.reset.flags.l = false ∧ State.reset.flags.g = false ∧
  State.reset.status = .running ∧ State.reset.out = [] ∧ Inv State.reset

/-- Loading an image (R195, R198; the 0 above the image is spec decision D7, the refusal D15, log entries 1 and 3). -/
def Obligations.LoadPlacesTheImage : Prop :=
  ∀ image : List Byte,
    (image.length ≤ 256 →
      ∃ s, load image = some s ∧ s = { State.reset with mem := s.mem } ∧ Memory.wf s.mem ∧
        ∀ a, Memory.get s.mem a = if h : a < image.length then image[a] else 0) ∧
    (256 < image.length → load image = none)

/-- THE INVARIANT: memory in canonical form, pc in 0 to 256, at most one flag set, and a status a run can reach, kept by every
step (R21, R28, R171 to R175, R180; that pc does not wrap and what a fault record holds are spec decisions D1 and D6, log
entry 7). -/
def Obligations.StepKeepsTheInvariant : Prop :=
  ∀ s t : State, Inv s → step s = .next t → Inv t

/-- Every state a run reaches from any loaded image meets the invariant, and the run's output so far stays a prefix of its
output later: what was output is never changed (R31, R205; spec decisions D1, D6, D7, log entries 1 and 7). -/
def Obligations.ReachableStatesMeetTheInvariant : Prop :=
  ∀ (image : List Byte) (s t u : State), load image = some s → Reaches s t → Reaches t u →
    Inv t ∧ Inv u ∧ t.out <+: u.out

/-- R98: the loop has no step limit. Out of fuel is an outcome of its own, reported only while Running; Halted and Aborted are
reported only in those states; more fuel does not change how a run ended; and a state that steps to itself runs forever. -/
def Obligations.OutOfFuelIsNotAnEnd : Prop :=
  (∀ (n : Nat) (s t : State), runFor n s = .outOfFuel t → t.status = .running) ∧
  (∀ (n : Nat) (s t : State), runFor n s = .halted t → t.status = .halted ∧ ∀ k, runFor (n + k) s = .halted t) ∧
  (∀ (n : Nat) (s t : State), runFor n s = .aborted t → (∃ r, t.status = .aborted r) ∧ ∀ k, runFor (n + k) s = .aborted t) ∧
  (∀ (n : Nat) (s t : State), runFor n s ≠ .noNext t) ∧
  (∀ s : State, step s = .next s → ∀ n, runFor n s = .outOfFuel s)
end

