-- ==== Sys2Proof/Laws/State.lean ====
section
/-! SUPPORT. One lemma per field per update of State, and reading after writing a register. -/

namespace Sys2Proof.Machine

/-! writeReg -/

@[simp] theorem writeReg_pc (r : Reg) (v : Byte) (s : State) : (writeReg r v s).pc = s.pc := rfl
@[simp] theorem writeReg_flags (r : Reg) (v : Byte) (s : State) : (writeReg r v s).flags = s.flags := rfl
@[simp] theorem writeReg_status (r : Reg) (v : Byte) (s : State) : (writeReg r v s).status = s.status := rfl
@[simp] theorem writeReg_mem (r : Reg) (v : Byte) (s : State) : (writeReg r v s).mem = s.mem := rfl
@[simp] theorem writeReg_out (r : Reg) (v : Byte) (s : State) : (writeReg r v s).out = s.out := rfl

theorem readReg_writeReg (r q : Reg) (v : Byte) (s : State) :
    readReg q (writeReg r v s) = if q = r then v else readReg q s := by
  simp only [readReg, writeReg, Vector.get_eq_getElem, Vector.getElem_set, Fin.ext_iff, eq_comm]

@[simp] theorem readReg_writeReg_self (r : Reg) (v : Byte) (s : State) : readReg r (writeReg r v s) = v := by
  simp [readReg_writeReg]

theorem readReg_writeReg_ne {r q : Reg} (v : Byte) (s : State) (h : q ≠ r) :
    readReg q (writeReg r v s) = readReg q s := by
  simp [readReg_writeReg, h]

/-! setPc -/

@[simp] theorem setPc_regs (p : PcWord) (s : State) : (setPc p s).regs = s.regs := rfl
@[simp] theorem setPc_pc (p : PcWord) (s : State) : (setPc p s).pc = p := rfl
@[simp] theorem setPc_flags (p : PcWord) (s : State) : (setPc p s).flags = s.flags := rfl
@[simp] theorem setPc_status (p : PcWord) (s : State) : (setPc p s).status = s.status := rfl
@[simp] theorem setPc_mem (p : PcWord) (s : State) : (setPc p s).mem = s.mem := rfl
@[simp] theorem setPc_out (p : PcWord) (s : State) : (setPc p s).out = s.out := rfl
@[simp] theorem readReg_setPc (r : Reg) (p : PcWord) (s : State) : readReg r (setPc p s) = readReg r s := rfl

/-! setFlags -/

@[simp] theorem setFlags_regs (f : Flags) (s : State) : (setFlags f s).regs = s.regs := rfl
@[simp] theorem setFlags_pc (f : Flags) (s : State) : (setFlags f s).pc = s.pc := rfl
@[simp] theorem setFlags_flags (f : Flags) (s : State) : (setFlags f s).flags = f := rfl
@[simp] theorem setFlags_status (f : Flags) (s : State) : (setFlags f s).status = s.status := rfl
@[simp] theorem setFlags_mem (f : Flags) (s : State) : (setFlags f s).mem = s.mem := rfl
@[simp] theorem setFlags_out (f : Flags) (s : State) : (setFlags f s).out = s.out := rfl
@[simp] theorem readReg_setFlags (r : Reg) (f : Flags) (s : State) : readReg r (setFlags f s) = readReg r s := rfl

/-! emit -/

@[simp] theorem emit_regs (v : Byte) (s : State) : (emit v s).regs = s.regs := rfl
@[simp] theorem emit_pc (v : Byte) (s : State) : (emit v s).pc = s.pc := rfl
@[simp] theorem emit_flags (v : Byte) (s : State) : (emit v s).flags = s.flags := rfl
@[simp] theorem emit_status (v : Byte) (s : State) : (emit v s).status = s.status := rfl
@[simp] theorem emit_mem (v : Byte) (s : State) : (emit v s).mem = s.mem := rfl
@[simp] theorem emit_out (v : Byte) (s : State) : (emit v s).out = s.out ++ [v] := rfl
@[simp] theorem readReg_emit (r : Reg) (v : Byte) (s : State) : readReg r (emit v s) = readReg r s := rfl

/-! halt -/

@[simp] theorem halt_regs (s : State) : (halt s).regs = s.regs := rfl
@[simp] theorem halt_pc (s : State) : (halt s).pc = s.pc := rfl
@[simp] theorem halt_flags (s : State) : (halt s).flags = s.flags := rfl
@[simp] theorem halt_status (s : State) : (halt s).status = .halted := rfl
@[simp] theorem halt_mem (s : State) : (halt s).mem = s.mem := rfl
@[simp] theorem halt_out (s : State) : (halt s).out = s.out := rfl
@[simp] theorem readReg_halt (r : Reg) (s : State) : readReg r (halt s) = readReg r s := rfl

/-! takeException -/

@[simp] theorem takeException_regs (e : Raise) (s : State) : (takeException e s).regs = s.regs := rfl
@[simp] theorem takeException_pc (e : Raise) (s : State) : (takeException e s).pc = s.pc := rfl
@[simp] theorem takeException_flags (e : Raise) (s : State) : (takeException e s).flags = s.flags := rfl
@[simp] theorem takeException_status (e : Raise) (s : State) :
    (takeException e s).status = .aborted { kind := e.kind, pc := s.pc, detail := e.detail } := rfl
@[simp] theorem takeException_mem (e : Raise) (s : State) : (takeException e s).mem = s.mem := rfl
@[simp] theorem takeException_out (e : Raise) (s : State) : (takeException e s).out = s.out := rfl
@[simp] theorem readReg_takeException (r : Reg) (e : Raise) (s : State) :
    readReg r (takeException e s) = readReg r s := rfl

/-! setByte -/

@[simp] theorem setByte_regs (a : Nat) (v : Byte) (s : State) : (setByte a v s).regs = s.regs := rfl
@[simp] theorem setByte_pc (a : Nat) (v : Byte) (s : State) : (setByte a v s).pc = s.pc := rfl
@[simp] theorem setByte_flags (a : Nat) (v : Byte) (s : State) : (setByte a v s).flags = s.flags := rfl
@[simp] theorem setByte_status (a : Nat) (v : Byte) (s : State) : (setByte a v s).status = s.status := rfl
@[simp] theorem setByte_mem (a : Nat) (v : Byte) (s : State) : (setByte a v s).mem = Memory.set s.mem a v := rfl
@[simp] theorem setByte_out (a : Nat) (v : Byte) (s : State) : (setByte a v s).out = s.out := rfl
@[simp] theorem readReg_setByte (r : Reg) (a : Nat) (v : Byte) (s : State) :
    readReg r (setByte a v s) = readReg r s := rfl

/-! placeAtPc -/

@[simp] theorem placeAtPc_regs (bs : List Byte) (s : State) : (placeAtPc bs s).regs = s.regs := rfl
@[simp] theorem placeAtPc_pc (bs : List Byte) (s : State) : (placeAtPc bs s).pc = s.pc := rfl
@[simp] theorem placeAtPc_flags (bs : List Byte) (s : State) : (placeAtPc bs s).flags = s.flags := rfl
@[simp] theorem placeAtPc_status (bs : List Byte) (s : State) : (placeAtPc bs s).status = s.status := rfl
@[simp] theorem placeAtPc_mem (bs : List Byte) (s : State) :
    (placeAtPc bs s).mem = Memory.store s.mem s.pc.toNat bs := rfl
@[simp] theorem placeAtPc_out (bs : List Byte) (s : State) : (placeAtPc bs s).out = s.out := rfl

end Sys2Proof.Machine
end

