-- ==== Sys2Proof/Laws/Memory.lean ====
section
/-! SUPPORT. The laws of memory: what a read after a write gives, and that every operation keeps the canonical form. -/

namespace Sys2Proof.Machine

/-! Read after write, on any list of cells. -/

theorem Memory.get_insert (m : List Host.Cell) (a b : Nat) (v : Byte) :
    Memory.get (Memory.insert a v m) b = if b = a then v else Memory.get m b := by
  induction m with
  | nil => simp [Memory.insert, Memory.get, eq_comm]
  | cons c rest ih =>
    obtain ⟨k, w⟩ := c
    simp only [Memory.insert]
    split
    · simp [Memory.get, eq_comm]
    · split
      · subst k
        by_cases h : a = b
        · simp [Memory.get, h]
        · simp [Memory.get, h, Ne.symm h]
      · by_cases h : k = b
        · subst h
          simp [Memory.get]
          intro h'; exact absurd h'.symm ‹_›
        · simp [Memory.get, h, ih]

theorem Memory.get_erase (m : List Host.Cell) (a b : Nat) :
    Memory.get (Memory.erase a m) b = if b = a then Config.unlistedByte else Memory.get m b := by
  induction m with
  | nil => simp [Memory.erase, Memory.get]
  | cons c rest ih =>
    obtain ⟨k, w⟩ := c
    simp only [Memory.erase] at ih
    by_cases hk : k = a
    · subst hk
      simp only [Memory.erase, List.filter_cons, bne_self_eq_false, Bool.false_eq_true, if_false, ih, Memory.get]
      by_cases h : b = k <;> simp [h]
      intro h'; exact absurd h'.symm h
    · simp only [Memory.erase, List.filter_cons, bne_iff_ne, ne_eq, hk, not_false_eq_true, if_true, Memory.get, ih]
      by_cases h : k = b
      · subst h; simp [hk]
      · simp [h]

/-- A read after a write: the written byte at that address, every other byte as before. -/
theorem Memory.get_set (m : List Host.Cell) (a b : Nat) (v : Byte) :
    Memory.get (Memory.set m a v) b = if b = a then v else Memory.get m b := by
  unfold Memory.set
  split
  · subst v; exact Memory.get_erase m a b
  · exact Memory.get_insert m a b v

@[simp] theorem Memory.get_set_self (m : List Host.Cell) (a : Nat) (v : Byte) :
    Memory.get (Memory.set m a v) a = v := by simp [Memory.get_set]

theorem Memory.get_set_ne (m : List Host.Cell) {a b : Nat} (v : Byte) (h : b ≠ a) :
    Memory.get (Memory.set m a v) b = Memory.get m b := by simp [Memory.get_set, h]

/-! The canonical form. -/

theorem Memory.mem_insert {a : Nat} {v : Byte} {m : List Host.Cell} {c : Host.Cell}
    (h : c ∈ Memory.insert a v m) : c = (a, v) ∨ c ∈ m := by
  induction m with
  | nil => simpa [Memory.insert] using h
  | cons d rest ih =>
    obtain ⟨k, w⟩ := d
    simp only [Memory.insert] at h
    split at h
    · simpa using h
    · split at h
      · rcases List.mem_cons.mp h with h | h
        · exact .inl h
        · exact .inr (List.mem_cons_of_mem _ h)
      · rcases List.mem_cons.mp h with h | h
        · exact .inr (h ▸ List.mem_cons_self)
        · exact (ih h).imp id (List.mem_cons_of_mem _)

theorem Memory.pairwise_insert (a : Nat) (v : Byte) {m : List Host.Cell}
    (h : m.Pairwise (fun c d => c.1 < d.1)) : (Memory.insert a v m).Pairwise (fun c d => c.1 < d.1) := by
  induction m with
  | nil => simp [Memory.insert]
  | cons d rest ih =>
    obtain ⟨k, w⟩ := d
    obtain ⟨hk, hr⟩ := List.pairwise_cons.mp h
    simp only [Memory.insert]
    split
    · rename_i hak
      refine List.pairwise_cons.mpr ⟨fun c hc => ?_, h⟩
      rcases List.mem_cons.mp hc with rfl | hc
      · exact hak
      · exact Nat.lt_trans hak (hk c hc)
    · split
      · rename_i hak
        subst hak
        exact List.pairwise_cons.mpr ⟨hk, hr⟩
      · refine List.pairwise_cons.mpr ⟨fun c hc => ?_, ih hr⟩
        rcases Memory.mem_insert hc with rfl | hc
        · simp only; omega
        · exact hk c hc

/-- A write of a byte at an address of the address space keeps the canonical form. -/
theorem Memory.wf_set {m : List Host.Cell} (h : Memory.wf m) {a : Nat} (ha : a < Config.memSize) (v : Byte) :
    Memory.wf (Memory.set m a v) := by
  obtain ⟨hp, hc⟩ := h
  unfold Memory.set
  split
  · exact ⟨hp.filter _, fun c hm => hc c (List.mem_of_mem_filter hm)⟩
  · rename_i hv
    refine ⟨Memory.pairwise_insert a v hp, fun c hm => ?_⟩
    rcases Memory.mem_insert hm with rfl | hm
    · exact ⟨ha, hv⟩
    · exact hc c hm

theorem Memory.wf_store {m : List Host.Cell} (h : Memory.wf m) (a : Nat) (bs : List Byte) :
    Memory.wf (Memory.store m a bs) := by
  induction bs generalizing m a with
  | nil => exact h
  | cons b bs ih =>
    refine ih ?_ (a + 1)
    split
    · exact Memory.wf_set h ‹_› b
    · exact h

theorem Memory.wf_nil : Memory.wf [] := by simp [Memory.wf]

theorem reset_mem_wf : Memory.wf State.reset.mem := Memory.wf_nil

/-! The primitives. -/

theorem memRead_of_lt {a : Nat} {s : State} (h : a < 256) : memRead a s = .ok (Memory.get s.mem a) := by
  simp [memRead, Config.memSize, Nat.not_le.mpr h]

theorem memRead_of_ge {a : Nat} {s : State} (h : 256 ≤ a) : memRead a s = .error (outOfBounds a) := by
  simp [memRead, Config.memSize, h]

theorem memWrite_of_lt {a : Nat} {v : Byte} {s : State} (h : a < 256) :
    memWrite a v s = .ok (setByte a v s) := by
  simp [memWrite, Config.memSize, Nat.not_le.mpr h]

theorem memWrite_of_ge {a : Nat} {v : Byte} {s : State} (h : 256 ≤ a) :
    memWrite a v s = .error (outOfBounds a) := by
  simp [memWrite, Config.memSize, h]

/-- A memory write that answers a state keeps the canonical form. -/
theorem memWrite_keeps_wf {a : Nat} {v : Byte} {s t : State} (h : memWrite a v s = .ok t) (hs : Memory.wf s.mem) :
    Memory.wf t.mem := by
  unfold memWrite at h
  split at h
  · cases h
  · cases h; exact Memory.wf_set hs (Nat.not_le.mp ‹_›) v

/-! Bytes stored in a row. -/

theorem Memory.get_store (m : List Host.Cell) (a b : Nat) (bs : List Byte) :
    Memory.get (Memory.store m a bs) b =
      if a ≤ b ∧ b < a + bs.length ∧ b < 256 then bs.getD (b - a) 0 else Memory.get m b := by
  induction bs generalizing m a with
  | nil => simp [Memory.store]; omega
  | cons v vs ih =>
    simp only [Memory.store, ih, List.length_cons]
    by_cases hab : b = a
    · subst hab
      by_cases hb : b < 256
      · simp [hb, Config.memSize]
      · simp [hb, Config.memSize]
    · by_cases hlt : a + 1 ≤ b ∧ b < a + 1 + vs.length ∧ b < 256
      · have h2 : a ≤ b ∧ b < a + (vs.length + 1) ∧ b < 256 := by omega
        have h3 : b - a = (b - (a + 1)) + 1 := by omega
        rw [if_pos hlt, if_pos h2, h3]
        simp
      · have h2 : ¬(a ≤ b ∧ b < a + (vs.length + 1) ∧ b < 256) := by omega
        rw [if_neg hlt, if_neg h2]
        split
        · exact Memory.get_set_ne m v hab
        · rfl

end Sys2Proof.Machine
end

