-- ==== Sys2Proof/Laws/Ops.lean ====
section
/-! SUPPORT. One lemma per shared operation, saying once everything it can do. -/

namespace Sys2Proof.Machine

/-! Sequencing in a handler. -/

@[simp] theorem ok_bind {α β : Type} (a : α) (f : α → Except Raise β) : (Except.ok a >>= f) = f a := rfl
@[simp] theorem error_bind {α β : Type} (e : Raise) (f : α → Except Raise β) :
    ((Except.error e : Except Raise α) >>= f) = .error e := rfl
@[simp] theorem pure_eq_ok {α : Type} (a : α) : (pure a : Except Raise α) = .ok a := rfl

/-! Register operands. -/

@[simp] theorem regByte_toNat (r : Reg) : (regByte r).toNat = r.val := by
  simp only [regByte, BitVec.toNat_ofNat]; have := r.isLt; omega

theorem regOperand_regByte (r : Reg) : regOperand (regByte r) = .ok r := by
  simp [regOperand]

theorem regOperand_of_gt {b : Byte} (h : 7 < b.toNat) : regOperand b = .error (invalidRegister b) := by
  simp [regOperand]; omega

/-- A byte up to 7 is the operand byte of the register it names. -/
theorem eq_regByte {b : Byte} (h : b.toNat < 8) : b = regByte ⟨b.toNat, h⟩ :=
  BitVec.eq_of_toNat_eq (by simp)

/-- Every operand byte names a register or is above 7. -/
theorem regByte_or_gt (b : Byte) : (∃ r, b = regByte r) ∨ 7 < b.toNat := by
  by_cases h : b.toNat < 8
  · exact .inl ⟨_, eq_regByte h⟩
  · exact .inr (by omega)

/-! The stack. -/

theorem spDown_toNat (s : State) : (spDown s).toNat = ((sp s).toNat + 255) % 256 := by simp [spDown]

theorem spUp_toNat (s : State) : (spUp s).toNat = ((sp s).toNat + 1) % 256 := by simp [spUp]

theorem pushAddr_lt (s : State) : pushAddr s < 256 := (spDown s).isLt

/-- A push never faults: SP is stepped down and the byte is written at the new SP. -/
theorem push_eq (v : Byte) (s : State) :
    push v s = .ok (setByte (pushAddr s) v (writeReg Config.spIndex (spDown s) s)) := by
  simp [push, memWrite_of_lt (pushAddr_lt s)]

/-- A pop never faults: it answers the byte at SP, and SP is stepped up. -/
theorem pop_eq (s : State) :
    pop s = .ok (Memory.get s.mem (sp s).toNat, writeReg Config.spIndex (spUp s) s) := by
  simp [pop, memRead_of_lt (sp s).isLt]

/-! pc -/

theorem targetOf_toNat (b : Byte) : (targetOf b).toNat = b.toNat := by
  have := b.isLt
  simp only [targetOf, BitVec.toNat_setWidth]; omega

/-- pc + n is exact below 512. -/
theorem pcPlus_toNat {n : Nat} {s : State} (h : s.pc.toNat + n < 512) : (pcPlus n s).toNat = s.pc.toNat + n := by
  simp only [pcPlus, BitVec.toNat_ofNat]; omega

theorem advance_of_auto {ir : Byte} (h : handlerSetsPc ir = false) (s : State) :
    advance ir s = setPc (pcPlus (instrLen ir) s) s := by
  simp [advance, h]

theorem advance_of_handler {ir : Byte} (h : handlerSetsPc ir = true) (s : State) : advance ir s = s := by
  simp [advance, h]

/-! The end of an instruction. -/

@[simp] theorem finish_ok (ir : Byte) (s t : State) : finish ir s (.ok t) = .next (advance ir t) := rfl
@[simp] theorem finish_error (ir : Byte) (s : State) (e : Raise) :
    finish ir s (.error e) = .next (takeException e s) := rfl

/-- Everything the end of an instruction can do. -/
theorem finish_cases {ir : Byte} {s t : State} {r : Except Raise State} (h : finish ir s r = .next t) :
    (∃ u, r = .ok u ∧ t = advance ir u) ∨ (∃ e, r = .error e ∧ t = takeException e s) := by
  cases r with
  | ok u => exact .inl ⟨u, rfl, by simpa using h.symm⟩
  | error e => exact .inr ⟨e, rfl, by simpa using h.symm⟩

/-! The ALU handlers with valid register operands. -/

theorem aluHandler_add (A B : Reg) (s : State) :
    aluHandler .add (regByte A) (regByte B) s =
      .ok (writeReg A (BitVec.ofNat 8 ((readReg A s).toNat + (readReg B s).toNat)) s) := by
  simp [aluHandler, regOperand_regByte, alu, writeAlu]

theorem aluHandler_mul (A B : Reg) (s : State) :
    aluHandler .mul (regByte A) (regByte B) s =
      .ok (writeReg A (BitVec.ofNat 8 ((readReg A s).toNat * (readReg B s).toNat)) s) := by
  simp [aluHandler, regOperand_regByte, alu, writeAlu]

theorem aluHandler_cmp (A B : Reg) (s : State) :
    aluHandler .cmp (regByte A) (regByte B) s = .ok (setFlags (compareFlags (readReg A s) (readReg B s)) s) := by
  simp [aluHandler, regOperand_regByte, alu, writeAlu]

/-- An ALU instruction whose first bad register byte is `b` raises InvalidRegister on it. -/
theorem aluHandler_invalid (op : AluOp) (a b : Byte) (s : State) :
    (7 < a.toNat → aluHandler op a b s = .error (invalidRegister a)) ∧
    (a.toNat ≤ 7 → 7 < b.toNat → aluHandler op a b s = .error (invalidRegister b)) := by
  refine ⟨fun h => by simp [aluHandler, regOperand_of_gt h], fun ha hb => ?_⟩
  have : regOperand a = .ok ⟨a.toNat, by omega⟩ := by simp [regOperand, show a.toNat < 8 by omega]
  simp [aluHandler, this, regOperand_of_gt hb]

end Sys2Proof.Machine
end

