-- ==== Sys2Proof/Laws/Decode.lean ====
section
/-! SUPPORT. The decoder: what the lookup gives on each opcode, and what a decode that succeeds says. -/

namespace Sys2Proof

open Sys2Proof.Machine

@[simp] theorem lookup_hlt (a b : Byte) : lookup Opc.hlt a b = some .hlt := rfl
@[simp] theorem lookup_ldi (a b : Byte) : lookup Opc.ldi a b = some (.ldi a b) := rfl
@[simp] theorem lookup_prn (a b : Byte) : lookup Opc.prn a b = some (.prn a) := rfl
@[simp] theorem lookup_add (a b : Byte) : lookup Opc.add a b = some (.add a b) := rfl
@[simp] theorem lookup_mul (a b : Byte) : lookup Opc.mul a b = some (.mul a b) := rfl
@[simp] theorem lookup_cmp (a b : Byte) : lookup Opc.cmp a b = some (.cmp a b) := rfl
@[simp] theorem lookup_push (a b : Byte) : lookup Opc.push a b = some (.push a) := rfl
@[simp] theorem lookup_pop (a b : Byte) : lookup Opc.pop a b = some (.pop a) := rfl
@[simp] theorem lookup_call (a b : Byte) : lookup Opc.call a b = some (.call a) := rfl
@[simp] theorem lookup_ret (a b : Byte) : lookup Opc.ret a b = some .ret := rfl
@[simp] theorem lookup_jmp (a b : Byte) : lookup Opc.jmp a b = some (.jmp a) := rfl
@[simp] theorem lookup_jeq (a b : Byte) : lookup Opc.jeq a b = some (.jeq a) := rfl
@[simp] theorem lookup_jne (a b : Byte) : lookup Opc.jne a b = some (.jne a) := rfl

/-- Outside the thirteen opcodes the lookup answers no row. -/
theorem lookup_of_notMem {ir : Byte} (h : ir ∉ opcodes) (a b : Byte) : lookup ir a b = none := by
  simp only [opcodes, List.mem_cons, List.not_mem_nil, or_false, not_or] at h
  obtain ⟨h1, h2, h3, h4, h5, h6, h7, h8, h9, h10, h11, h12, h13⟩ := h
  rw [lookup, if_neg h1, if_neg h2, if_neg h3, if_neg h4, if_neg h5, if_neg h6, if_neg h7, if_neg h8, if_neg h9, if_neg h10, if_neg h11, if_neg h12, if_neg h13]

/-- The lookup answers a row only for that row's opcode. -/
theorem lookup_opcode {ir a b : Byte} {i : Instr} (h : lookup ir a b = some i) : ir = i.opcode := by
  by_cases hm : ir ∈ opcodes
  · simp only [opcodes, List.mem_cons, List.not_mem_nil, or_false] at hm
    rcases hm with rfl | rfl | rfl | rfl | rfl | rfl | rfl | rfl | rfl | rfl | rfl | rfl | rfl <;> (cases h; rfl)
  · rw [lookup_of_notMem hm] at h; cases h

theorem validReg_iff (b : Byte) : validReg b = true ↔ b.toNat < 8 :=
  decide_eq_true_iff

@[simp] theorem validReg_regByte (r : Reg) : validReg (regByte r) = true := by simp [validReg_iff]

theorem firstBadReg_eq_none_iff (i : Instr) : i.firstBadReg = none ↔ WellFormed i = true := by
  simp [Instr.firstBadReg, WellFormed]

/-- The byte that the register check reports is above 7 and is a register byte of the instruction. -/
theorem firstBadReg_some {i : Instr} {b : Byte} (h : i.firstBadReg = some b) : 7 < b.toNat ∧ b ∈ i.regBytes := by
  refine ⟨?_, List.mem_of_find?_eq_some h⟩
  have hb := List.find?_some h
  simp only [Bool.not_eq_true', ← Bool.not_eq_true, validReg_iff] at hb
  omega

/-- Everything decode can do where it accepts: the row the lookup gives, and a well-formed one. -/
theorem decode_eq_ok_iff {ir a b : Byte} {i : Instr} :
    decode ir a b = .ok i ↔ lookup ir a b = some i ∧ WellFormed i = true := by
  constructor
  · intro h
    unfold decode at h
    split at h
    · cases h
    · split at h
      · cases h
      · cases h
        exact ⟨‹_›, (firstBadReg_eq_none_iff _).mp ‹_›⟩
  · rintro ⟨h1, h2⟩
    simp only [decode, h1, (firstBadReg_eq_none_iff i).mpr h2]

/-- Everything decode can do where it refuses. -/
theorem decode_error_cases {ir a b : Byte} {e : DecodeError} (h : decode ir a b = .error e) :
    (lookup ir a b = none ∧ e = .unknownOpcode ir) ∨
      ∃ i c, lookup ir a b = some i ∧ i.firstBadReg = some c ∧ e = .invalidRegister c := by
  unfold decode at h
  split at h
  · exact .inl ⟨‹_›, by cases h; rfl⟩
  · split at h
    · exact .inr ⟨_, _, ‹_›, ‹_›, by cases h; rfl⟩
    · cases h

end Sys2Proof
end

