-- ==== Sys2Proof/Laws/Exec.lean ====
section
/-! SUPPORT. One equation per instruction with valid register operands: what its meaning answers, in terms of the shared
operations, so that no proof unfolds a meaning again. -/

namespace Sys2Proof.Machine

theorem exec_hlt (s : State) : exec .hlt s = .next (setPc (pcPlus 1 s) (halt s)) := rfl

theorem exec_ldi (A : Reg) (imm : Byte) (s : State) :
    exec (.ldi (regByte A) imm) s = .next (setPc (pcPlus 3 s) (writeReg A imm s)) := by
  simp only [exec, execLdi, regOperand_regByte, ok_bind, pure_eq_ok, finish_ok, immOperand]; rfl

theorem exec_prn (A : Reg) (s : State) :
    exec (.prn (regByte A)) s = .next (setPc (pcPlus 2 s) (emit (readReg A s) s)) := by
  simp only [exec, execPrn, regOperand_regByte, ok_bind, pure_eq_ok, finish_ok]; rfl

theorem exec_add (A B : Reg) (s : State) :
    exec (.add (regByte A) (regByte B)) s =
      .next (setPc (pcPlus 3 s) (writeReg A (BitVec.ofNat 8 ((readReg A s).toNat + (readReg B s).toNat)) s)) := by
  simp only [exec, execAdd, aluHandler_add, finish_ok]; rfl

theorem exec_mul (A B : Reg) (s : State) :
    exec (.mul (regByte A) (regByte B)) s =
      .next (setPc (pcPlus 3 s) (writeReg A (BitVec.ofNat 8 ((readReg A s).toNat * (readReg B s).toNat)) s)) := by
  simp only [exec, execMul, aluHandler_mul, finish_ok]; rfl

theorem exec_cmp (A B : Reg) (s : State) :
    exec (.cmp (regByte A) (regByte B)) s =
      .next (setPc (pcPlus 3 s) (setFlags (compareFlags (readReg A s) (readReg B s)) s)) := by
  simp only [exec, execCmp, aluHandler_cmp, finish_ok]; rfl

theorem exec_push (A : Reg) (s : State) :
    exec (.push (regByte A)) s =
      .next (setPc (pcPlus 2 s)
        (setByte (pushAddr s) (readReg A s) (writeReg Config.spIndex (spDown s) s))) := by
  simp only [exec, execPush, regOperand_regByte, ok_bind, push_eq, finish_ok]; rfl

theorem exec_pop (A : Reg) (s : State) :
    exec (.pop (regByte A)) s =
      .next (setPc (pcPlus 2 s)
        (writeReg A (Memory.get s.mem (sp s).toNat) (writeReg Config.spIndex (spUp s) s))) := by
  simp only [exec, execPop, regOperand_regByte, ok_bind, pop_eq, pure_eq_ok, finish_ok]; rfl

theorem exec_call (A : Reg) (s : State) :
    exec (.call (regByte A)) s =
      .next (setPc (targetOf (readReg A (writeReg Config.spIndex (spDown s) s)))
        (setByte (pushAddr s) (BitVec.ofNat 8 (s.pc.toNat + 2)) (writeReg Config.spIndex (spDown s) s))) := by
  simp only [exec, execCall, regOperand_regByte, ok_bind, push_eq, pure_eq_ok, finish_ok]; rfl

theorem exec_ret (s : State) :
    exec .ret s =
      .next (setPc (targetOf (Memory.get s.mem (sp s).toNat)) (writeReg Config.spIndex (spUp s) s)) := by
  simp only [exec, execRet, ok_bind, pop_eq, pure_eq_ok, finish_ok]; rfl

theorem exec_jmp (A : Reg) (s : State) :
    exec (.jmp (regByte A)) s = .next (setPc (targetOf (readReg A s)) s) := by
  simp only [exec, execJmp, regOperand_regByte, ok_bind, pure_eq_ok, finish_ok]; rfl

theorem exec_jeq (A : Reg) (s : State) :
    exec (.jeq (regByte A)) s =
      .next (setPc (if s.flags.e then targetOf (readReg A s) else pcPlus 2 s) s) := by
  simp only [exec, execJeq, regOperand_regByte, ok_bind, pure_eq_ok, finish_ok]; rfl

theorem exec_jne (A : Reg) (s : State) :
    exec (.jne (regByte A)) s =
      .next (setPc (if s.flags.e then pcPlus 2 s else targetOf (readReg A s)) s) := by
  simp only [exec, execJne, regOperand_regByte, ok_bind, pure_eq_ok, finish_ok]; rfl

end Sys2Proof.Machine
end

