-- ==== Sys2Proof/Laws/Step.lean ====
section
/-! SUPPORT. What fetching and one step can do, said once. -/

namespace Sys2Proof.Machine

/-- The fetch below address 254: the three bytes at pc. -/
theorem fetch_of_le {s : State} (h : s.pc.toNat ≤ 253) :
    fetch s = .ok (Memory.get s.mem s.pc.toNat, Memory.get s.mem (s.pc.toNat + 1), Memory.get s.mem (s.pc.toNat + 2)) := by
  simp only [fetch, memRead_of_lt (show s.pc.toNat < 256 by omega), memRead_of_lt (show s.pc.toNat + 1 < 256 by omega),
    memRead_of_lt (show s.pc.toNat + 2 < 256 by omega), ok_bind, pure_eq_ok]

/-- The fetch from address 254 up: the first of its three addresses that is above 255. -/
theorem fetch_of_ge {s : State} (h : 254 ≤ s.pc.toNat) : fetch s = .error (outOfBounds (max 256 s.pc.toNat)) := by
  unfold fetch
  rcases Nat.lt_or_ge s.pc.toNat 255 with h1 | h1
  · rw [memRead_of_lt (by omega), ok_bind, memRead_of_lt (by omega), ok_bind, memRead_of_ge (by omega), error_bind]
    congr 2; omega
  · rcases Nat.lt_or_ge s.pc.toNat 256 with h2 | h2
    · rw [memRead_of_lt (by omega), ok_bind, memRead_of_ge (by omega), error_bind]
      congr 2; omega
    · rw [memRead_of_ge h2, error_bind, Nat.max_eq_right h2]

theorem fetchDecode_of_ok {s : State} (h : s.pc.toNat ≤ 253) {i : Instr}
    (hi : decode (irAt s) (opAAt s) (opBAt s) = .ok i) : fetchDecode s = .ok i := by
  simp only [irAt, opAAt, opBAt] at hi
  simp only [fetchDecode, fetch_of_le h, ok_bind, hi, pure_eq_ok]

theorem fetchDecode_of_error {s : State} (h : s.pc.toNat ≤ 253) {e : DecodeError}
    (he : decode (irAt s) (opAAt s) (opBAt s) = .error e) : fetchDecode s = .error (decodeRaise e) := by
  simp only [irAt, opAAt, opBAt] at he
  simp only [fetchDecode, fetch_of_le h, ok_bind, he]
  rfl

theorem fetchDecode_of_ge {s : State} (h : 254 ≤ s.pc.toNat) :
    fetchDecode s = .error (outOfBounds (max 256 s.pc.toNat)) := by
  simp only [fetchDecode, fetch_of_ge h, error_bind]

/-- Where fetch and decode answer an instruction: below address 254, the one the three bytes at pc decode to. -/
theorem fetchDecode_eq_ok_iff {s : State} {i : Instr} :
    fetchDecode s = .ok i ↔ s.pc.toNat ≤ 253 ∧ decode (irAt s) (opAAt s) (opBAt s) = .ok i := by
  refine ⟨fun h => ?_, fun h => fetchDecode_of_ok h.1 h.2⟩
  rcases Nat.lt_or_ge s.pc.toNat 254 with hp | hp
  · refine ⟨by omega, ?_⟩
    cases hd : decode (irAt s) (opAAt s) (opBAt s) with
    | ok j => rw [fetchDecode_of_ok (by omega) hd] at h; cases h; rfl
    | error e => rw [fetchDecode_of_error (by omega) hd] at h; cases h
  · rw [fetchDecode_of_ge hp] at h; cases h

/-- Everything fetch and decode can raise. -/
theorem fetchDecode_error_cases {s : State} {r : Raise} (h : fetchDecode s = .error r) :
    (254 ≤ s.pc.toNat ∧ r = outOfBounds (max 256 s.pc.toNat)) ∨
      (s.pc.toNat ≤ 253 ∧ ∃ e, decode (irAt s) (opAAt s) (opBAt s) = .error e ∧ r = decodeRaise e) := by
  rcases Nat.lt_or_ge s.pc.toNat 254 with hp | hp
  · refine .inr ⟨by omega, ?_⟩
    cases hd : decode (irAt s) (opAAt s) (opBAt s) with
    | ok j => rw [fetchDecode_of_ok (by omega) hd] at h; cases h
    | error e => rw [fetchDecode_of_error (by omega) hd] at h; cases h; exact ⟨e, rfl, rfl⟩
  · rw [fetchDecode_of_ge hp] at h; cases h; exact .inl ⟨hp, rfl⟩

/-- A step that answers a next state began in Running, and took an exception or ran the instruction at pc. -/
theorem step_next_cases {s t : State} (h : step s = .next t) :
    s.status = .running ∧
      ((∃ e, fetchDecode s = .error e ∧ t = takeException e s) ∨ (∃ i, fetchDecode s = .ok i ∧ exec i s = .next t)) := by
  unfold step at h
  split at h
  · cases h
  · cases h
  · refine ⟨‹_›, ?_⟩
    split at h
    · exact .inl ⟨_, ‹_›, by simpa using h.symm⟩
    · exact .inr ⟨_, ‹_›, h⟩

theorem step_of_ok {s : State} (h : s.status = .running) {i : Instr} (hi : fetchDecode s = .ok i) :
    step s = exec i s := by
  simp only [step, h, hi]

theorem step_of_error {s : State} (h : s.status = .running) {r : Raise} (hr : fetchDecode s = .error r) :
    step s = .next (takeException r s) := by
  simp only [step, h, hr]

/-- Below address 254 the three bytes placed at pc are the three bytes the next fetch reads. -/
theorem fetch_withFetchWord {s : State} (h : s.pc.toNat ≤ 253) (nbits w : Nat) :
    fetch (s.withFetchWord nbits w) = .ok (tableByte nbits w 0, tableByte nbits w 1, tableByte nbits w 2) := by
  have hp : (s.withFetchWord nbits w).pc = s.pc := rfl
  have hm : (s.withFetchWord nbits w).mem = Memory.store s.mem s.pc.toNat (tableBytes nbits w) := rfl
  rw [fetch_of_le (by rw [hp]; exact h), hp, hm]
  simp only [Memory.get_store, tableBytes, List.length_cons, List.length_nil]
  rw [if_pos (by omega), if_pos (by omega), if_pos (by omega)]
  simp

/-- The instruction placed at pc is the one that the next step runs. -/
theorem step_withFetchWord {s : State} (hr : s.status = .running) (h : s.pc.toNat ≤ 253) {nbits w : Nat} {i : Instr}
    (hi : decodeTableWord nbits w = some i) : step (s.withFetchWord nbits w) = exec i (s.withFetchWord nbits w) := by
  have hd : decode (tableByte nbits w 0) (tableByte nbits w 1) (tableByte nbits w 2) = .ok i := by
    simp only [decodeTableWord, decodeList, tableBytes, List.getD_cons_zero, List.getD_cons_succ] at hi
    split at hi
    · rename_i heq; simpa [heq] using hi
    · cases hi
  refine step_of_ok (s := s.withFetchWord nbits w) hr ?_
  simp only [fetchDecode, fetch_withFetchWord h, ok_bind, hd, pure_eq_ok]

end Sys2Proof.Machine
end

