-- ==== Sys2Proof/Laws/Loop.lean ====
section
/-! SUPPORT. The loop, one lemma per case of status and fuel. -/

namespace Sys2Proof.Machine

theorem runFor_halted {s : State} (h : s.status = .halted) (n : Nat) : runFor n s = .halted s := by
  cases n <;> simp only [runFor, h]

theorem runFor_aborted {s : State} {r : FaultRecord} (h : s.status = .aborted r) (n : Nat) :
    runFor n s = .aborted s := by
  cases n <;> simp only [runFor, h]

theorem runFor_zero {s : State} (h : s.status = .running) : runFor 0 s = .outOfFuel s := by
  simp only [runFor, h]

theorem runFor_succ {s t : State} (h : step s = .next t) (n : Nat) : runFor (n + 1) s = runFor n t := by
  simp only [runFor, (step_next_cases h).1, h]

end Sys2Proof.Machine
end

