-- ==== Sys2Proof/Laws/PerInstr.lean ====
section
/-! SUPPORT. The family EncodeShape: what the encoding of every instruction looks like, one lemma per constructor. -/

namespace Sys2Proof.Laws.EncodeShape

/-- The encoding begins with the instruction's opcode, which is one of the thirteen, and is as long as the opcode's own
bits say (spec/30_encoding.md R60, R62). -/
def Statement (i : Instr) : Prop :=
  (encode i).head? = some i.opcode ∧ i.opcode ∈ opcodes ∧ (encode i).length = instrLen i.opcode

theorem hlt : Statement .hlt := ⟨rfl, by simp [Instr.opcode, opcodes], (by decide : 1 = instrLen Opc.hlt)⟩
theorem ldi (a imm : Byte) : Statement (.ldi a imm) := ⟨rfl, by simp [Instr.opcode, opcodes], (by decide : 3 = instrLen Opc.ldi)⟩
theorem prn (a : Byte) : Statement (.prn a) := ⟨rfl, by simp [Instr.opcode, opcodes], (by decide : 2 = instrLen Opc.prn)⟩
theorem add (a b : Byte) : Statement (.add a b) := ⟨rfl, by simp [Instr.opcode, opcodes], (by decide : 3 = instrLen Opc.add)⟩
theorem mul (a b : Byte) : Statement (.mul a b) := ⟨rfl, by simp [Instr.opcode, opcodes], (by decide : 3 = instrLen Opc.mul)⟩
theorem cmp (a b : Byte) : Statement (.cmp a b) := ⟨rfl, by simp [Instr.opcode, opcodes], (by decide : 3 = instrLen Opc.cmp)⟩
theorem push (a : Byte) : Statement (.push a) := ⟨rfl, by simp [Instr.opcode, opcodes], (by decide : 2 = instrLen Opc.push)⟩
theorem pop (a : Byte) : Statement (.pop a) := ⟨rfl, by simp [Instr.opcode, opcodes], (by decide : 2 = instrLen Opc.pop)⟩
theorem call (a : Byte) : Statement (.call a) := ⟨rfl, by simp [Instr.opcode, opcodes], (by decide : 2 = instrLen Opc.call)⟩
theorem ret : Statement .ret := ⟨rfl, by simp [Instr.opcode, opcodes], (by decide : 1 = instrLen Opc.ret)⟩
theorem jmp (a : Byte) : Statement (.jmp a) := ⟨rfl, by simp [Instr.opcode, opcodes], (by decide : 2 = instrLen Opc.jmp)⟩
theorem jeq (a : Byte) : Statement (.jeq a) := ⟨rfl, by simp [Instr.opcode, opcodes], (by decide : 2 = instrLen Opc.jeq)⟩
theorem jne (a : Byte) : Statement (.jne a) := ⟨rfl, by simp [Instr.opcode, opcodes], (by decide : 2 = instrLen Opc.jne)⟩

end Sys2Proof.Laws.EncodeShape
end

