-- ==== Sys2Proof/Tests/Slice0.lean ====
section
/-! SUPPORT. The model's own tests. Expected results are those of spec/95_test_vectors.md (the vector's name stands at each
test) or of the opcode map of spec/30_encoding.md R66, never the model's own answers. Then a witness for the hypotheses of
every statement that has some, at the boundaries of its clauses. -/

namespace Sys2Proof.Tests

open Sys2Proof.Machine

/-! ## Building a small state and looking at one step -/

/-- A running state from reset: pc, registers as (number, value) pairs, flags (E, L, G), memory cells in rising order. -/
def mk (pc : PcWord) (regs : List (Reg × Byte)) (flags : Bool × Bool × Bool) (cells : List Host.Cell) : State :=
  { regs.foldl (fun s r => writeReg r.1 r.2 s) State.reset with
    pc := pc, flags := { e := flags.1, l := flags.2.1, g := flags.2.2 }, mem := cells }

/-- No flag set. -/
def f0 : Bool × Bool × Bool := (false, false, false)

/-- Fields of the state after one step. -/
def after {α : Type} (s : State) (f : State → α) : Option α :=
  match step s with
  | .next t => some (f t)
  | _ => none

/-- The flags as (E, L, G). -/
def elg (s : State) : Bool × Bool × Bool := (s.flags.e, s.flags.l, s.flags.g)

/-! ## Decoding: one word of each instruction, written out bit by bit from R66 -/

theorem test_decode_hlt : decode 0b00000001 0xAB 0xCD = .ok .hlt := rfl
theorem test_decode_ldi : decode 0b10000010 0b00000101 0b11111111 = .ok (.ldi 5 255) := rfl
theorem test_decode_prn : decode 0b01000111 0b00000111 0xCD = .ok (.prn 7) := rfl
theorem test_decode_add : decode 0b10100000 0b00000001 0b00000010 = .ok (.add 1 2) := rfl
theorem test_decode_mul : decode 0b10100010 0b00000001 0b00000010 = .ok (.mul 1 2) := rfl
theorem test_decode_cmp : decode 0b10100111 0b00000001 0b00000010 = .ok (.cmp 1 2) := rfl
theorem test_decode_push : decode 0b01000101 0b00000011 0xCD = .ok (.push 3) := rfl
theorem test_decode_pop : decode 0b01000110 0b00000011 0xCD = .ok (.pop 3) := rfl
theorem test_decode_call : decode 0b01010000 0b00000011 0xCD = .ok (.call 3) := rfl
theorem test_decode_ret : decode 0b00010001 0xAB 0xCD = .ok .ret := rfl
theorem test_decode_jmp : decode 0b01010100 0b00000011 0xCD = .ok (.jmp 3) := rfl
theorem test_decode_jeq : decode 0b01010101 0b00000011 0xCD = .ok (.jeq 3) := rfl
theorem test_decode_jne : decode 0b01010110 0b00000011 0xCD = .ok (.jne 3) := rfl

/-- AA = 3, an LS-8 opcode that this core lacks, and zeroed memory are unknown (R69, E4, E5). -/
theorem test_decode_unknown :
    decode 0xC0 0 0 = .error (.unknownOpcode 0xC0) ∧ decode 0xA8 0 0 = .error (.unknownOpcode 0xA8) ∧
    decode 0x00 0 0 = .error (.unknownOpcode 0x00) := ⟨rfl, rfl, rfl⟩

/-- The opcode is bits 7..0 of a table word, the next bytes follow above it. -/
theorem test_decodeTableWord :
    decodeTableWord 24 0x0201A0 = some (.add 1 2) ∧ decodeTableWord 8 0x01 = some .hlt ∧
    decodeTableWord 16 0xFF0345 = some (.push 3) ∧ decodeTableWord 16 0x0845 = none := ⟨rfl, rfl, rfl, rfl⟩

/-- The source's two assembly lines (R72). -/
theorem test_asm : (Instr.ldi 0 8).asm = "LDI r0,8" ∧ (Instr.prn 0).asm = "PRN r0" := by decide

/-! ## WellFormed: an ill-formed term for each check -/

theorem smoke_ill_formed_register_a : WellFormed (.add 8 0) = false ∧ (Instr.add 8 12).firstBadReg = some 8 := by decide
theorem smoke_ill_formed_register_b : WellFormed (.cmp 7 255) = false ∧ (Instr.cmp 7 255).firstBadReg = some 255 := by decide
theorem smoke_ill_formed_single_register :
    WellFormed (.ldi 8 0) = false ∧ WellFormed (.prn 9) = false ∧ WellFormed (.mul 16 0) = false ∧
    WellFormed (.push 8) = false ∧ WellFormed (.pop 128) = false ∧ WellFormed (.call 8) = false ∧
    WellFormed (.jmp 8) = false ∧ WellFormed (.jeq 8) = false ∧ WellFormed (.jne 255) = false := by decide
theorem smoke_well_formed : WellFormed (.ldi 7 255) = true ∧ WellFormed (.add 7 0) = true ∧ WellFormed .ret = true := by decide

/-! ## Memory -/

/-- Writing what an unlisted address reads as removes the entry; a write in the middle keeps the order. -/
theorem test_memory_canonical :
    Memory.set [(3, 5), (9, 1)] 3 0 = [(9, 1)] ∧ Memory.set [(3, 5), (9, 1)] 7 2 = [(3, 5), (7, 2), (9, 1)] := by decide

/-! ## One step of each instruction (spec/95_test_vectors.md part 2) -/

/-- A1. -/
theorem test_add_carry_discarded :
    after (mk 0 [(0, 200), (1, 100)] (false, true, false) [(0, 0xA0), (2, 1)])
      (fun t => (readReg 0 t, readReg 1 t, t.pc, elg t)) = some (44, 100, 3, (false, true, false)) := by decide
/-- A3. -/
theorem test_add_same_register :
    after (mk 0 [(0, 128)] f0 [(0, 0xA0)]) (fun t => (readReg 0 t, t.pc)) = some (0, 3) := by decide
/-- A8. -/
theorem test_mul_low_byte :
    after (mk 0 [(0, 255), (1, 255)] f0 [(0, 0xA2), (2, 1)]) (fun t => (readReg 0 t, t.pc)) = some (1, 3) := by decide
/-- A11. -/
theorem test_mul_square :
    after (mk 0 [(2, 12)] f0 [(0, 0xA2), (1, 2), (2, 2)]) (fun t => (readReg 2 t, t.pc)) = some (144, 3) := by decide
/-- A14. -/
theorem test_cmp_clears_old_flag :
    after (mk 0 [(0, 7), (1, 7)] (false, false, true) [(0, 0xA7), (2, 1)]) (fun t => (elg t, t.pc)) =
      some ((true, false, false), 3) := by decide
/-- A17. -/
theorem test_cmp_unsigned :
    after (mk 0 [(0, 128), (1, 127)] f0 [(0, 0xA7), (2, 1)]) (fun t => (elg t, readReg 0 t)) =
      some ((false, false, true), 128) := by decide
/-- L2. -/
theorem test_ldi_stack_pointer :
    after (mk 0 [] f0 [(0, 0x82), (1, 7), (2, 0xF4)]) (fun t => (readReg 7 t, t.pc)) = some (0xF4, 3) := by decide
/-- L4. -/
theorem test_prn :
    after (mk 0 [(0, 8)] f0 [(0, 0x47)]) (fun t => (t.out, t.pc)) = some ([8], 2) := by decide
/-- L7. -/
theorem test_hlt_last_address :
    after (mk 253 [] f0 [(253, 0x01)]) (fun t => (t.status, t.pc)) = some (.halted, 254) := by decide
/-- L8. -/
theorem test_hlt_too_high :
    after (mk 254 [] f0 [(254, 0x01)]) (fun t => (t.status, t.pc)) =
      some (.aborted ⟨.outOfBoundsMemoryAccess, 254, 256⟩, 254) := by decide
/-- K2. -/
theorem test_push_wraps :
    after (mk 0 [(0, 42)] f0 [(0, 0x45)]) (fun t => (readReg 7 t, Memory.get t.mem 0xFF, t.pc)) =
      some (0xFF, 42, 2) := by decide
/-- K3. -/
theorem test_push_r7 :
    after (mk 0 [(7, 0xF4)] f0 [(0, 0x45), (1, 7)]) (fun t => (readReg 7 t, Memory.get t.mem 0xF3)) =
      some (0xF3, 0xF4) := by decide
/-- K5. -/
theorem test_pop_wraps :
    after (mk 0 [(7, 0xFF)] f0 [(0, 0x46), (1, 1), (0xFF, 99)])
      (fun t => (readReg 1 t, readReg 7 t, Memory.get t.mem 0xFF, t.pc)) = some (99, 0, 99, 2) := by decide
/-- K6. -/
theorem test_pop_r7 :
    after (mk 0 [(7, 0xF3)] f0 [(0, 0x46), (1, 7), (0xF3, 0x80)]) (fun t => (readReg 7 t, t.pc)) = some (0x80, 2) := by decide
/-- C3. -/
theorem test_call_r7 :
    after (mk 0x10 [(7, 0xF4)] f0 [(0x10, 0x50), (0x11, 7)])
      (fun t => (t.pc, readReg 7 t, Memory.get t.mem 0xF3)) = some (0xF3, 0xF3, 0x12) := by decide
/-- C4. -/
theorem test_call_highest :
    after (mk 253 [(1, 0x40), (7, 0xF4)] f0 [(253, 0x50), (254, 1)])
      (fun t => (t.pc, readReg 7 t, Memory.get t.mem 0xF3)) = some (0x40, 0xF3, 255) := by decide
/-- C5. -/
theorem test_ret :
    after (mk 0x40 [(7, 0xF3)] f0 [(0x40, 0x11), (0xF3, 0x12)]) (fun t => (t.pc, readReg 7 t)) = some (0x12, 0xF4) := by decide
/-- C6. -/
theorem test_ret_wraps :
    after (mk 0x40 [(7, 0xFF)] f0 [(0x40, 0x11), (0xFF, 0x08)]) (fun t => (t.pc, readReg 7 t)) = some (0x08, 0) := by decide
/-- C7b. -/
theorem test_jmp_unchecked :
    after (mk 0 [(2, 254)] f0 [(0, 0x54), (1, 2)]) (fun t => (t.pc, t.status)) = some (254, .running) := by decide
/-- C8. -/
theorem test_jeq_taken :
    after (mk 8 [(3, 0x30)] (true, false, false) [(8, 0x55), (9, 3)]) (fun t => (t.pc, elg t)) =
      some (0x30, (true, false, false)) := by decide
/-- C14. -/
theorem test_jeq_not_taken_to_the_top :
    after (mk 253 [(3, 0x30)] f0 [(253, 0x55), (254, 3)]) (fun t => (t.pc, t.status)) = some (255, .running) := by decide
/-- C11. -/
theorem test_jne_taken :
    after (mk 8 [(3, 0x30)] (false, false, true) [(8, 0x56), (9, 3)]) (fun t => t.pc) = some 0x30 := by decide
/-- C12. -/
theorem test_jne_not_taken :
    after (mk 8 [(3, 0x30)] (true, false, false) [(8, 0x56), (9, 3)]) (fun t => t.pc) = some 0x0A := by decide

/-! ## Faults -/

/-- E1, E3, E4. -/
theorem test_unknown_opcode :
    after (mk 10 [] f0 [(10, 0xFF)]) State.status = some (.aborted ⟨.unknownOpcode, 10, 0xFF⟩) ∧
    after (mk 254 [] f0 [(254, 0xFF)]) State.status = some (.aborted ⟨.outOfBoundsMemoryAccess, 254, 256⟩) ∧
    after State.reset State.status = some (.aborted ⟨.unknownOpcode, 0, 0⟩) := by decide
/-- L9, L10. -/
theorem test_fetch_above_the_top :
    after (mk 255 [] f0 [(255, 1)]) State.status = some (.aborted ⟨.outOfBoundsMemoryAccess, 255, 256⟩) ∧
    after (mk 256 [] f0 []) State.status = some (.aborted ⟨.outOfBoundsMemoryAccess, 256, 256⟩) := by decide
/-- E7, E8, E9. -/
theorem test_invalid_register :
    after (mk 0 [] f0 [(0, 0xA0), (1, 9), (2, 12)]) State.status = some (.aborted ⟨.invalidRegister, 0, 9⟩) ∧
    after (mk 0 [] f0 [(0, 0xA0), (1, 1), (2, 12)]) State.status = some (.aborted ⟨.invalidRegister, 0, 12⟩) ∧
    after (mk 0 [] f0 [(0, 0x55), (1, 8)]) State.status = some (.aborted ⟨.invalidRegister, 0, 8⟩) := by decide
/-- E11: no push happened. -/
theorem test_invalid_register_is_precise :
    after (mk 0 [(7, 0xF4)] f0 [(0, 0x50), (1, 8)]) id =
      some { mk 0 [(7, 0xF4)] f0 [(0, 0x50), (1, 8)] with status := .aborted ⟨.invalidRegister, 0, 8⟩ } := by decide
/-- R85. -/
theorem test_no_step_when_halted : step { State.reset with status := .halted } = .fault .halted := rfl
/-- R171. -/
theorem test_fault_codes :
    faultCode .unknownOpcode = 1 ∧ faultCode .unsupportedALUOperation = 2 ∧ faultCode .outOfBoundsMemoryAccess = 3 ∧
    faultCode .invalidRegister = 4 := by decide
/-- A word placed at reset is the instruction the first step runs. -/
theorem test_withFetchWord :
    after (State.reset.withFetchWord 24 0x088282) State.status = some (.aborted ⟨.invalidRegister, 0, 0x82⟩) ∧
    after (State.reset.withFetchWord 24 0x080082) (readReg 0) = some 8 := by decide
/-- R206: S1's output and its rendering, and R207. -/
theorem test_host_view :
    renderedOutput { State.reset with out := [8] } = ["8"] ∧ normalExit { State.reset with status := .halted } = some true ∧
    observation State.reset = none := by decide

/-! ## Witnesses: the hypotheses of the statements can be met, at the boundaries of their clauses -/

theorem witness_DecodeOfEncodeIsTheInstruction : WellFormed (.add 7 0) = true := by decide
theorem witness_DecodeAcceptsOnlyEncodings : decode 0xA0 7 0 = .ok (.add 7 0) := rfl
theorem witness_OtherOpcodesAreUnknown :
    (0x02 : Byte) ∉ ([0x01, 0x82, 0x47, 0xA0, 0xA2, 0xA7, 0x45, 0x46, 0x50, 0x11, 0x54, 0x55, 0x56] : List Byte) := by decide
theorem witness_LengthComesFromOpcodeBits : (0xC0 : Byte).toNat / 64 = 3 ∧ (0xFF : Byte).toNat / 64 = 3 := by decide
theorem witness_IgnoredBytesHaveNoEffect :
    (mk 254 [] f0 [(254, 0x01)]).status = .running ∧ (mk 254 [] f0 [(254, 0x01)]).pc.toNat = 254 := by decide
theorem witness_RegisterBytesAreCheckedAtDecode :
    7 < (8 : Byte).toNat ∧ (7 : Byte).toNat ≤ 7 ∧ 7 < (255 : Byte).toNat ∧ (0 : Byte).toNat ≤ 7 := by decide

/-- The highest address an instruction runs at: it meets the hypothesis of the instruction statements. -/
def top : State := mk 253 [(0, 200), (1, 100), (7, 0)] (true, false, false) [(253, 0xA0), (255, 1)]

theorem witness_AddWritesTheSumMod256 : top.pc.toNat ≤ 253 := by decide
theorem witness_MulWritesTheProductMod256 : top.pc.toNat ≤ 253 := by decide
theorem witness_CmpWritesAllThreeFlags : top.pc.toNat ≤ 253 := by decide
theorem witness_PushStoresBelowTheStackPointer : top.pc.toNat ≤ 253 ∧ pushAddr top = 255 := by decide
theorem witness_PopLoadsFromTheStackPointer : top.pc.toNat ≤ 253 ∧ (6 : Reg) ≠ 7 := by decide
theorem witness_CallPushesTheReturnAddress : top.pc.toNat ≤ 253 ∧ (6 : Reg) ≠ 7 ∧ (7 : Reg) = 7 := by decide
theorem witness_JmpGoesToTheRegister :
    (readReg 2 (mk 9 [(2, 9)] f0 [])).toNat = (mk 9 [(2, 9)] f0 []).pc.toNat := by decide
theorem witness_JeqJumpsOnlyOnEqual : top.pc.toNat ≤ 253 ∧ 7 < (8 : Byte).toNat := by decide
theorem witness_JneJumpsOnlyOnNotEqual : top.pc.toNat ≤ 253 ∧ 7 < (8 : Byte).toNat := by decide
theorem witness_LdiLoadsTheImmediate : top.pc.toNat ≤ 253 := by decide
theorem witness_PrnEmitsTheRegister : top.pc.toNat ≤ 253 := by decide
theorem witness_HltHaltsAndAdvances :
    top.pc.toNat ≤ 253 ∧ (mk 254 [] f0 [(254, 1)]).status = .running ∧ (mk 254 [] f0 [(254, 1)]).pc.toNat = 254 ∧
    irAt (mk 254 [] f0 [(254, 1)]) = 0x01 ∧ (mk 255 [] f0 [(255, 1)]).pc.toNat = 255 ∧
    irAt (mk 255 [] f0 [(255, 1)]) = 0x01 := by decide
theorem witness_InvalidRegisterIsTaken : 7 < (8 : Byte).toNat ∧ (7 : Byte).toNat ≤ 7 := by decide
theorem witness_StepRunsTheDecodedInstruction :
    top.status = .running ∧ top.pc.toNat ≤ 253 ∧ decode (irAt top) (opAAt top) (opBAt top) = .ok (.add 0 1) :=
  ⟨by decide, by decide, rfl⟩
theorem witness_AStepExistsOnlyWhenRunning :
    top.status = .running ∧ (halt top).status = .halted ∧
    (abortedWith .unknownOpcode 2 top).status = .aborted ⟨.unknownOpcode, 253, 2⟩ := by decide
theorem witness_FetchAboveTheTopFaults :
    (mk 254 [] f0 []).status = .running ∧ 254 ≤ (mk 254 [] f0 []).pc.toNat ∧ 254 ≤ (mk 256 [] f0 []).pc.toNat ∧
    254 ≤ (mk 511 [] f0 []).pc.toNat := by decide
theorem witness_UnknownOpcodeIsTaken :
    (mk 253 [] f0 [(253, 0xFF)]).status = .running ∧ (mk 253 [] f0 [(253, 0xFF)]).pc.toNat ≤ 253 ∧
    irAt (mk 253 [] f0 [(253, 0xFF)]) ∉
      ([0x01, 0x82, 0x47, 0xA0, 0xA2, 0xA7, 0x45, 0x46, 0x50, 0x11, 0x54, 0x55, 0x56] : List Byte) := by decide
/-- One state for each clause: 254 and 256, an unknown opcode at 253, a bad A, a bad B, and an instruction that runs. -/
theorem witness_FaultsAreReportedInOrder :
    (mk 256 [] f0 []).status = .running ∧ (mk 256 [] f0 []).pc.toNat ≤ 256 ∧ 254 ≤ (mk 254 [] f0 []).pc.toNat ∧
    irAt (mk 253 [] f0 []) ∉ opcodes ∧
    (irAt (mk 0 [] f0 [(0, 0xA0), (1, 8), (2, 8)]) ∉ ([0x01, 0x11] : List Byte) ∧
      7 < (opAAt (mk 0 [] f0 [(0, 0xA0), (1, 8), (2, 8)])).toNat) ∧
    (irAt (mk 0 [] f0 [(0, 0xA0), (1, 7), (2, 8)]) ∈ ([0xA0, 0xA2, 0xA7] : List Byte) ∧
      ¬ 7 < (opAAt (mk 0 [] f0 [(0, 0xA0), (1, 7), (2, 8)])).toNat ∧
      7 < (opBAt (mk 0 [] f0 [(0, 0xA0), (1, 7), (2, 8)])).toNat) ∧
    irAt top ∈ opcodes ∧ ¬ 7 < (opAAt top).toNat ∧ ¬ 7 < (opBAt top).toNat := by decide
theorem witness_FaultsArePrecise :
    ∃ t, step State.reset = .next t ∧ t.status = .aborted ⟨.unknownOpcode, 0, 0⟩ := ⟨_, rfl, rfl⟩
theorem witness_OnlyHltHaltsAndOnlyFaultsAbort :
    (∃ t, step (mk 253 [] f0 [(253, 1)]) = .next t ∧ t.status = .halted) ∧
    (∃ t, step State.reset = .next t ∧ t.status = .aborted ⟨.unknownOpcode, 0, 0⟩) ∧
    (halt State.reset).status ≠ .running := ⟨⟨_, rfl, rfl⟩, ⟨_, rfl, rfl⟩, by decide⟩
theorem witness_UnsupportedAluOperationIsNeverTaken :
    ∃ t, step (mk 254 [] f0 []) = .next t ∧ t.status = .aborted ⟨.outOfBoundsMemoryAccess, 254, 256⟩ := ⟨_, rfl, rfl⟩
theorem witness_PcPolicyFollowsOpcodeBits :
    WellFormed (.call 7) = true ∧ top.pc.toNat ≤ 253 ∧ (Instr.call 7).opcode.toNat / 16 % 2 = 1 ∧
    (Instr.hlt).opcode.toNat / 16 % 2 = 0 := by decide
theorem witness_MemoryPrimitives : 256 > 255 ∧ 255 ≤ 255 := by decide
theorem witness_OnlyPushAndCallWriteMemory :
    ∃ t, exec (.push 1) top = .next t ∧ Memory.get t.mem 255 ≠ Memory.get top.mem 255 := ⟨_, rfl, by decide⟩
theorem witness_StackIsLastInFirstOut :
    (List.replicate 256 (1 : Byte)).length ≤ 256 ∧ ([] : List Byte).length ≤ 256 := by
  simp only [List.length_replicate, List.length_nil]; decide
theorem witness_PushPushPopPop : (0 : Reg) ≠ 7 ∧ (1 : Reg) ≠ 7 ∧ (6 : Reg) ≠ 7 ∧ (0 : Reg) ≠ (1 : Reg) := by decide
theorem witness_CallThenRetRoundTrips :
    ∃ t, top.pc.toNat ≤ 253 ∧ exec (.call (regByte 1)) top = .next t ∧ readReg 7 t = readReg 7 t ∧
      Memory.get t.mem (readReg 7 t).toNat = Memory.get t.mem (readReg 7 t).toNat := ⟨_, by decide, rfl, rfl, rfl⟩
/-- P10's third step: the pushed byte 0x01 becomes the next opcode. -/
theorem witness_PushedBytesAreFetchedAtOnce :
    let s := mk 251 [(0, 1), (7, 254)] f0 [(251, 0x45)]
    s.status = .running ∧ s.pc.toNat ≤ 251 ∧ irAt s = 0x45 ∧ opAAt s = regByte 0 ∧ pushAddr s = s.pc.toNat + 2 ∧
    decode (readReg 0 s) (Memory.get s.mem (s.pc.toNat + 3)) (Memory.get s.mem (s.pc.toNat + 4)) = .ok .hlt :=
  ⟨by decide, by decide, by decide, by decide, by decide, rfl⟩
theorem witness_FlagsPersistAcrossOtherInstructions :
    (∃ t, exec (.add 0 1) top = .next t) ∧ (∀ a b, Instr.add 0 1 ≠ .cmp a b) ∧
    (mk 253 [] f0 []).pc.toNat ≤ 253 ∧ (mk 253 [] f0 []).flags = State.reset.flags :=
  ⟨⟨_, rfl⟩, by simp, by decide, by decide⟩
theorem witness_NothingReadsLessOrGreater :
    eraseLG (mk 0 [] (true, true, false) [(0, 0x55)]) = eraseLG (mk 0 [] (true, false, true) [(0, 0x55)]) ∧
    mk 0 [] (true, true, false) [(0, 0x55)] ≠ mk 0 [] (true, false, true) [(0, 0x55)] := by decide
theorem witness_OutputGrowsOnlyByPrn : ∃ t, exec (.prn (regByte 7)) top = .next t := ⟨_, rfl⟩
theorem witness_LoadPlacesTheImage :
    ([] : List Byte).length ≤ 256 ∧ (List.replicate 256 (1 : Byte)).length ≤ 256 ∧
    256 < (List.replicate 257 (1 : Byte)).length := by
  simp only [List.length_replicate, List.length_nil]; decide
theorem witness_StepKeepsTheInvariant : Inv State.reset ∧ ∃ t, step State.reset = .next t :=
  ⟨⟨Memory.wf_nil, by decide, by simp [Flags.legal, State.reset], trivial⟩, _, rfl⟩
theorem witness_ReachableStatesMeetTheInvariant :
    ∃ s t, load [0x82, 0, 8, 0x01] = some s ∧ step s = .next t ∧ Reaches s t ∧ Reaches t t :=
  ⟨_, _, rfl, rfl, .step _ _ .refl rfl, .refl⟩
/-- A run that ends in each way, and a state that steps to itself. -/
theorem witness_OutOfFuelIsNotAnEnd :
    runFor 0 State.reset = .outOfFuel State.reset ∧ runFor 0 (halt State.reset) = .halted (halt State.reset) ∧
    (∃ t, runFor 1 State.reset = .aborted t) ∧
    step (mk 0 [] f0 [(0, 0x54)]) = .next (mk 0 [] f0 [(0, 0x54)]) := ⟨rfl, rfl, ⟨_, rfl⟩, rfl⟩

end Sys2Proof.Tests
end

section
/-! PROOFS: the state's own laws (spec/10_state.md). First what one instruction and one step can do, said once; then the
statements, each read off from that. -/

namespace Sys2Proof.Machine

/-! ## Instruction terms by their register operands -/

/-- A case split of every instruction term: some register byte names no register, or the term is one of the thirteen with
registers for operands. -/
theorem instr_regCases {motive : Instr → Prop}
    (invalid : ∀ i b, i.firstBadReg = some b → motive i)
    (hlt : motive .hlt)
    (ldi : ∀ (A : Reg) (imm : Byte), motive (.ldi (regByte A) imm))
    (prn : ∀ A : Reg, motive (.prn (regByte A)))
    (add : ∀ A B : Reg, motive (.add (regByte A) (regByte B)))
    (mul : ∀ A B : Reg, motive (.mul (regByte A) (regByte B)))
    (cmp : ∀ A B : Reg, motive (.cmp (regByte A) (regByte B)))
    (push : ∀ A : Reg, motive (.push (regByte A)))
    (pop : ∀ A : Reg, motive (.pop (regByte A)))
    (call : ∀ A : Reg, motive (.call (regByte A)))
    (ret : motive .ret)
    (jmp : ∀ A : Reg, motive (.jmp (regByte A)))
    (jeq : ∀ A : Reg, motive (.jeq (regByte A)))
    (jne : ∀ A : Reg, motive (.jne (regByte A)))
    (i : Instr) : motive i := by
  cases hbad : i.firstBadReg with
  | some b => exact invalid i b hbad
  | none =>
    have hreg : ∀ b ∈ i.regBytes, ∃ r, b = regByte r := fun b hb =>
      ⟨_, eq_regByte ((validReg_iff b).mp (List.all_eq_true.mp ((firstBadReg_eq_none_iff i).mp hbad) b hb))⟩
    cases i with
    | hlt => exact hlt
    | ret => exact ret
    | ldi a imm => obtain ⟨A, rfl⟩ := hreg a (.head _); exact ldi A imm
    | prn a => obtain ⟨A, rfl⟩ := hreg a (.head _); exact prn A
    | push a => obtain ⟨A, rfl⟩ := hreg a (.head _); exact push A
    | pop a => obtain ⟨A, rfl⟩ := hreg a (.head _); exact pop A
    | call a => obtain ⟨A, rfl⟩ := hreg a (.head _); exact call A
    | jmp a => obtain ⟨A, rfl⟩ := hreg a (.head _); exact jmp A
    | jeq a => obtain ⟨A, rfl⟩ := hreg a (.head _); exact jeq A
    | jne a => obtain ⟨A, rfl⟩ := hreg a (.head _); exact jne A
    | add a b =>
      obtain ⟨A, rfl⟩ := hreg a (.head _)
      obtain ⟨B, rfl⟩ := hreg b (.tail _ (.head _))
      exact add A B
    | mul a b =>
      obtain ⟨A, rfl⟩ := hreg a (.head _)
      obtain ⟨B, rfl⟩ := hreg b (.tail _ (.head _))
      exact mul A B
    | cmp a b =>
      obtain ⟨A, rfl⟩ := hreg a (.head _)
      obtain ⟨B, rfl⟩ := hreg b (.tail _ (.head _))
      exact cmp A B

/-- The ALU handler raises on the first of its two operand bytes that names no register. -/
theorem aluHandler_of_firstBad {a b c : Byte} (h : [a, b].find? (fun x => !validReg x) = some c) (op : AluOp)
    (s : State) :
    aluHandler op a b s = .error (invalidRegister c) := by
  obtain ⟨hbadA, hbadB⟩ := aluHandler_invalid op a b s
  rcases regByte_or_gt a with ⟨A, rfl⟩ | ha
  · obtain ⟨hc, hm⟩ := firstBadReg_some (i := .add (regByte A) b) h
    have hA : (regByte A).toNat ≤ 7 := by rw [regByte_toNat]; omega
    rcases List.mem_pair.mp hm with rfl | rfl
    · omega
    · exact hbadB hA hc
  · have hv : validReg a = false := by rw [← Bool.not_eq_true, validReg_iff]; omega
    obtain rfl : a = c := by simpa [hv] using h
    exact hbadA ha

/-- An instruction with a bad register byte does nothing but take InvalidRegister on the first one (R89, R172). -/
theorem exec_of_firstBadReg {i : Instr} {b : Byte} (h : i.firstBadReg = some b) (s : State) :
    exec i s = .next (takeException (invalidRegister b) s) := by
  obtain ⟨hb, hm⟩ := firstBadReg_some h
  cases i with
  | hlt => cases hm
  | ret => cases hm
  | ldi a imm => obtain rfl := List.mem_singleton.mp hm; simp [exec, execLdi, regOperand_of_gt hb]
  | prn a => obtain rfl := List.mem_singleton.mp hm; simp [exec, execPrn, regOperand_of_gt hb]
  | push a => obtain rfl := List.mem_singleton.mp hm; simp [exec, execPush, regOperand_of_gt hb]
  | pop a => obtain rfl := List.mem_singleton.mp hm; simp [exec, execPop, regOperand_of_gt hb]
  | call a => obtain rfl := List.mem_singleton.mp hm; simp [exec, execCall, regOperand_of_gt hb]
  | jmp a => obtain rfl := List.mem_singleton.mp hm; simp [exec, execJmp, regOperand_of_gt hb]
  | jeq a => obtain rfl := List.mem_singleton.mp hm; simp [exec, execJeq, regOperand_of_gt hb]
  | jne a => obtain rfl := List.mem_singleton.mp hm; simp [exec, execJne, regOperand_of_gt hb]
  | add a c => simp [exec, execAdd, aluHandler_of_firstBad h]
  | mul a c => simp [exec, execMul, aluHandler_of_firstBad h]
  | cmp a c => simp [exec, execCmp, aluHandler_of_firstBad h]

/-- The instruction that fetch and decode answer has no bad register byte, so the check in `exec` never fires in a step. -/
theorem firstBadReg_of_fetchDecode {s : State} {i : Instr} (h : fetchDecode s = .ok i) : i.firstBadReg = none :=
  (firstBadReg_eq_none_iff i).mpr (decode_eq_ok_iff.mp (fetchDecode_eq_ok_iff.mp h).2).2

/-- The instruction that fetch and decode answer has the opcode byte at pc. -/
theorem irAt_of_fetchDecode {s : State} {i : Instr} (h : fetchDecode s = .ok i) : irAt s = i.opcode :=
  lookup_opcode (decode_eq_ok_iff.mp (fetchDecode_eq_ok_iff.mp h).2).1

/-! ## What one instruction can do -/

theorem pcPlus_toNat_le (n : Nat) (s : State) : (pcPlus n s).toNat ≤ s.pc.toNat + n := by
  simp only [pcPlus, BitVec.toNat_ofNat]
  exact Nat.mod_le _ _

theorem targetOf_toNat_le (b : Byte) : (targetOf b).toNat ≤ 255 := by
  have hb := b.isLt
  rw [targetOf_toNat]; omega

/-- `t` comes from `s` by changes to registers, to memory within its canonical form, and to pc, which a jump leaves below
256 and an advance at most 3 further. -/
structure DataEffect (s t : State) : Prop where
  flags : t.flags = s.flags
  status : t.status = s.status
  out : t.out = s.out
  mem : Memory.wf s.mem → Memory.wf t.mem
  pc : t.pc.toNat ≤ max 255 (s.pc.toNat + 3)

theorem DataEffect.refl (s : State) : DataEffect s s := ⟨rfl, rfl, rfl, id, by omega⟩

theorem DataEffect.writeReg {s t : State} (h : DataEffect s t) (r : Reg) (v : Byte) :
    DataEffect s (writeReg r v t) := ⟨h.flags, h.status, h.out, h.mem, h.pc⟩

theorem DataEffect.setByte {s t : State} (h : DataEffect s t) {a : Nat} (ha : a < 256) (v : Byte) :
    DataEffect s (setByte a v t) := ⟨h.flags, h.status, h.out, fun hs => Memory.wf_set (h.mem hs) ha v, h.pc⟩

theorem DataEffect.jump {s t : State} (h : DataEffect s t) (b : Byte) : DataEffect s (setPc (targetOf b) t) :=
  ⟨h.flags, h.status, h.out, h.mem, (targetOf_toNat_le b).trans (le_max_left _ _)⟩

theorem DataEffect.advance {s t : State} (h : DataEffect s t) {n : Nat} (hn : n ≤ 3) :
    DataEffect s (setPc (pcPlus n s) t) :=
  ⟨h.flags, h.status, h.out, h.mem, by have := pcPlus_toNat_le n s; simp only [setPc_pc]; omega⟩

/-- What `exec i` can leave of `s`: the four ways that touch flags, status or output, each with its instruction, and the
rest. -/
inductive ExecCase (s : State) : Instr → State → Prop where
  | invalid {i : Instr} {b : Byte} (h : i.firstBadReg = some b) : ExecCase s i (takeException (invalidRegister b) s)
  | hlt : ExecCase s .hlt (setPc (pcPlus 1 s) (halt s))
  | prn (A : Reg) : ExecCase s (.prn (regByte A)) (setPc (pcPlus 2 s) (emit (readReg A s) s))
  | cmp (A B : Reg) : ExecCase s (.cmp (regByte A) (regByte B))
      (setPc (pcPlus 3 s) (setFlags (compareFlags (readReg A s) (readReg B s)) s))
  | data {i : Instr} {t : State} (h : DataEffect s t) : ExecCase s i t

/-- Every instruction answers a next state, in one of the ways of `ExecCase`. -/
theorem exec_answers (i : Instr) (s : State) : ∃ t, exec i s = .next t ∧ ExecCase s i t := by
  have h0 := DataEffect.refl s
  have hpush (v : Byte) := (h0.writeReg Config.spIndex (spDown s)).setByte (pushAddr_lt s) v
  have hpop := h0.writeReg Config.spIndex (spUp s)
  cases i using instr_regCases with
  | invalid i b hb => exact ⟨_, exec_of_firstBadReg hb s, .invalid hb⟩
  | hlt => exact ⟨_, exec_hlt s, .hlt⟩
  | prn A => exact ⟨_, exec_prn A s, .prn A⟩
  | cmp A B => exact ⟨_, exec_cmp A B s, .cmp A B⟩
  | ldi A imm => exact ⟨_, exec_ldi A imm s, .data ((h0.writeReg _ _).advance (by decide))⟩
  | add A B => exact ⟨_, exec_add A B s, .data ((h0.writeReg _ _).advance (by decide))⟩
  | mul A B => exact ⟨_, exec_mul A B s, .data ((h0.writeReg _ _).advance (by decide))⟩
  | push A => exact ⟨_, exec_push A s, .data ((hpush _).advance (by decide))⟩
  | pop A => exact ⟨_, exec_pop A s, .data ((hpop.writeReg _ _).advance (by decide))⟩
  | call A => exact ⟨_, exec_call A s, .data ((hpush _).jump _)⟩
  | ret => exact ⟨_, exec_ret s, .data (hpop.jump _)⟩
  | jmp A => exact ⟨_, exec_jmp A s, .data (h0.jump _)⟩
  | jeq A =>
    refine ⟨_, exec_jeq A s, .data ?_⟩
    split
    · exact h0.jump _
    · exact h0.advance (by decide)
  | jne A =>
    refine ⟨_, exec_jne A s, .data ?_⟩
    split
    · exact h0.advance (by decide)
    · exact h0.jump _

theorem execCase_of_next {i : Instr} {s t : State} (h : exec i s = .next t) : ExecCase s i t := by
  obtain ⟨u, hu, hc⟩ := exec_answers i s
  rw [hu] at h
  cases h
  exact hc

/-- Where a step can lead, by the status it leaves: a fault of fetch or decode, HLT, or Running. -/
theorem step_status_cases {s t : State} (h : step s = .next t) :
    (∃ e, fetchDecode s = .error e ∧ t = takeException e s) ∨
      (fetchDecode s = .ok .hlt ∧ t.status = .halted) ∨ t.status = .running := by
  obtain ⟨hrun, he | ⟨i, hi, hx⟩⟩ := step_next_cases h
  · exact .inl he
  · right
    cases execCase_of_next hx with
    | invalid hb => rw [firstBadReg_of_fetchDecode hi] at hb; cases hb
    | hlt => exact .inl ⟨hi, rfl⟩
    | prn A => exact .inr hrun
    | cmp A B => exact .inr hrun
    | data hd => exact .inr (hd.status.trans hrun)

/-! ## Forgetting L and G

Forgetting L and G commutes with every operation, and what an instruction reads is the same with and without them. -/

@[simp] theorem eraseLG_pc (s : State) : (eraseLG s).pc = s.pc := rfl
@[simp] theorem eraseLG_status (s : State) : (eraseLG s).status = s.status := rfl
@[simp] theorem eraseLG_mem (s : State) : (eraseLG s).mem = s.mem := rfl
@[simp] theorem eraseLG_flags_e (s : State) : (eraseLG s).flags.e = s.flags.e := rfl
@[simp] theorem readReg_eraseLG (r : Reg) (s : State) : readReg r (eraseLG s) = readReg r s := rfl
@[simp] theorem readReg_writeReg_eraseLG (r q : Reg) (v : Byte) (s : State) :
    readReg q (writeReg r v (eraseLG s)) = readReg q (writeReg r v s) := rfl
@[simp] theorem eraseLG_eraseLG (s : State) : eraseLG (eraseLG s) = eraseLG s := rfl
@[simp] theorem sp_eraseLG (s : State) : sp (eraseLG s) = sp s := rfl
@[simp] theorem spDown_eraseLG (s : State) : spDown (eraseLG s) = spDown s := rfl
@[simp] theorem spUp_eraseLG (s : State) : spUp (eraseLG s) = spUp s := rfl
@[simp] theorem pushAddr_eraseLG (s : State) : pushAddr (eraseLG s) = pushAddr s := rfl
@[simp] theorem pcPlus_eraseLG (n : Nat) (s : State) : pcPlus n (eraseLG s) = pcPlus n s := rfl
@[simp] theorem fetchDecode_eraseLG (s : State) : fetchDecode (eraseLG s) = fetchDecode s := rfl

@[simp] theorem eraseLG_writeReg (r : Reg) (v : Byte) (s : State) :
    eraseLG (writeReg r v s) = writeReg r v (eraseLG s) := rfl
@[simp] theorem eraseLG_setPc (p : PcWord) (s : State) : eraseLG (setPc p s) = setPc p (eraseLG s) := rfl
@[simp] theorem eraseLG_setByte (a : Nat) (v : Byte) (s : State) :
    eraseLG (setByte a v s) = setByte a v (eraseLG s) := rfl
@[simp] theorem eraseLG_emit (v : Byte) (s : State) : eraseLG (emit v s) = emit v (eraseLG s) := rfl
@[simp] theorem eraseLG_halt (s : State) : eraseLG (halt s) = halt (eraseLG s) := rfl
@[simp] theorem eraseLG_takeException (e : Raise) (s : State) :
    eraseLG (takeException e s) = takeException e (eraseLG s) := rfl
/-- A write of all three flags does not see the old ones. -/
@[simp] theorem setFlags_eraseLG (f : Flags) (s : State) : setFlags f (eraseLG s) = setFlags f s := rfl
@[simp] theorem eraseLGOutcome_next (s : State) : eraseLGOutcome (.next s) = .next (eraseLG s) := rfl

/-- An instruction's outcome without L and G is the same from the state without them: CMP overwrites them, and only E of
the flags is read, by JEQ and JNE. -/
theorem eraseLGOutcome_exec (i : Instr) (s : State) :
    eraseLGOutcome (exec i (eraseLG s)) = eraseLGOutcome (exec i s) := by
  cases i using instr_regCases with
  | invalid i b hb => simp [exec_of_firstBadReg hb]
  | hlt => simp [exec_hlt]
  | ldi A imm => simp [exec_ldi]
  | prn A => simp [exec_prn]
  | add A B => simp [exec_add]
  | mul A B => simp [exec_mul]
  | cmp A B => simp [exec_cmp]
  | push A => simp [exec_push]
  | pop A => simp [exec_pop]
  | call A => simp [exec_call]
  | ret => simp [exec_ret]
  | jmp A => simp [exec_jmp]
  | jeq A => cases he : s.flags.e <;> simp [exec_jeq, he]
  | jne A => cases he : s.flags.e <;> simp [exec_jne, he]

theorem eraseLGOutcome_step (s : State) : eraseLGOutcome (step (eraseLG s)) = eraseLGOutcome (step s) := by
  cases hst : s.status with
  | halted => simp [step, hst]
  | aborted r => simp [step, hst]
  | running =>
    cases hf : fetchDecode s with
    | error e =>
      rw [step_of_error hst hf, step_of_error (s := eraseLG s) hst (r := e) hf]
      simp
    | ok i =>
      rw [step_of_ok hst hf, step_of_ok (s := eraseLG s) hst (i := i) hf]
      exact eraseLGOutcome_exec i s

/-- Settles O38: both steps agree with the step of the one state without L and G. -/
theorem nothingReadsLessOrGreater : Obligations.NothingReadsLessOrGreater := by
  intro s s' h
  rw [← eraseLGOutcome_step s, h, eraseLGOutcome_step s']

/-! ## The invariant across a step -/

theorem lookup_eq_none_iff {ir a b : Byte} : lookup ir a b = none ↔ ir ∉ opcodes := by
  refine ⟨fun h hm => ?_, fun h => lookup_of_notMem h a b⟩
  simp only [opcodes, List.mem_cons, List.not_mem_nil, or_false] at hm
  rcases hm with rfl | rfl | rfl | rfl | rfl | rfl | rfl | rfl | rfl | rfl | rfl | rfl | rfl <;> cases h

/-- The register bytes of a looked-up instruction are among the two candidate operand bytes (R64). -/
theorem regBytes_of_lookup {ir a b c : Byte} {i : Instr} (h : lookup ir a b = some i) (hc : c ∈ i.regBytes) :
    c = a ∨ c = b := by
  obtain rfl := lookup_opcode h
  cases i <;> simp_all [Instr.opcode, Instr.regBytes]

theorem statusLegal_of_running {s : State} (h : s.status = .running) : StatusLegal s := by
  simp only [StatusLegal, h]

/-- The record of a fault of fetch or decode is explained by pc and the bytes there (R171, R180). -/
theorem statusLegal_takeException {s : State} (hpc : s.pc.toNat ≤ 256) {e : Raise} (h : fetchDecode s = .error e) :
    StatusLegal (takeException e s) := by
  rcases fetchDecode_error_cases h with ⟨hge, rfl⟩ | ⟨hle, d, hd, rfl⟩
  · have hdet : max 256 s.pc.toNat = 256 := by omega
    exact ⟨rfl, hge, by rw [hdet]; rfl⟩
  · rcases decode_error_cases hd with ⟨hnone, rfl⟩ | ⟨i, c, hi, hbad, rfl⟩
    · exact ⟨rfl, hle, lookup_eq_none_iff.mp hnone, BitVec.toNat_setWidth_of_le (by decide)⟩
    · obtain ⟨hgt, hm⟩ := firstBadReg_some hbad
      have hmem : irAt s ∈ opcodes := by
        by_contra hno
        rw [lookup_of_notMem hno] at hi; cases hi
      refine ⟨rfl, hle, hmem, ?_⟩
      simp only [takeException, decodeRaise, invalidRegister, BitVec.toNat_setWidth_of_le (show 8 ≤ 9 by decide)]
      exact ⟨hgt, (regBytes_of_lookup hi hm).imp (congrArg _) (congrArg _)⟩

theorem compareFlags_legal (a b : Byte) : (compareFlags a b).legal := by
  simp only [Flags.legal, compareFlags, beq_iff_eq, decide_eq_true_eq]
  omega

theorem step_keeps_inv {s t : State} (hs : Inv s) (h : step s = .next t) : Inv t := by
  obtain ⟨hmem, hpc, hflags, -⟩ := hs
  obtain ⟨hrun, ⟨e, he, rfl⟩ | ⟨i, hi, hx⟩⟩ := step_next_cases h
  · exact ⟨hmem, hpc, hflags, statusLegal_takeException hpc he⟩
  · obtain ⟨hle, -⟩ := fetchDecode_eq_ok_iff.mp hi
    cases execCase_of_next hx with
    | invalid hb => rw [firstBadReg_of_fetchDecode hi] at hb; cases hb
    | hlt =>
      have hp : (pcPlus 1 s).toNat = s.pc.toNat + 1 := pcPlus_toNat (by omega)
      refine ⟨hmem, ?_, hflags, ?_⟩
      · rw [setPc_pc]; omega
      · simp only [StatusLegal, setPc_status, halt_status, setPc_pc]; omega
    | prn A =>
      have hp := pcPlus_toNat_le 2 s
      exact ⟨hmem, by rw [setPc_pc]; omega, hflags, statusLegal_of_running hrun⟩
    | cmp A B =>
      have hp := pcPlus_toNat_le 3 s
      exact ⟨hmem, by rw [setPc_pc]; omega, compareFlags_legal _ _, statusLegal_of_running hrun⟩
    | data hd =>
      have hp := hd.pc
      exact ⟨hd.mem hmem, by omega, hd.flags ▸ hflags, statusLegal_of_running (hd.status.trans hrun)⟩

/-- Settles O43, by the cases of a step. -/
theorem stepKeepsTheInvariant : Obligations.StepKeepsTheInvariant :=
  fun _ _ => step_keeps_inv

/-! ## Status, flags and output -/

/-- Settles O28: a step faults in fetch or decode, ran HLT, or leaves Running. -/
theorem onlyHltHaltsAndOnlyFaultsAbort : Obligations.OnlyHltHaltsAndOnlyFaultsAbort := by
  refine ⟨fun s t h ht => ?_, fun s t r h ht => ?_, fun s t hs h => hs (step_next_cases h).1⟩
  · rcases step_status_cases h with ⟨e, -, rfl⟩ | ⟨hi, -⟩ | hrun
    · cases ht
    · exact ⟨(fetchDecode_eq_ok_iff.mp hi).1, irAt_of_fetchDecode hi⟩
    · rw [ht] at hrun; cases hrun
  · rcases step_status_cases h with ⟨e, he, -⟩ | ⟨-, hhalt⟩ | hrun
    · rcases fetchDecode_error_cases he with ⟨hge, -⟩ | ⟨-, d, hd, -⟩
      · exact .inl hge
      · exact .inr ⟨d, hd⟩
    · rw [ht] at hhalt; cases hhalt
    · rw [ht] at hrun; cases hrun

theorem exec_flags_of_ne_cmp {i : Instr} {s t : State} (hi : ∀ a b, i ≠ .cmp a b) (h : exec i s = .next t) :
    t.flags = s.flags := by
  cases execCase_of_next h with
  | invalid hb => rfl
  | hlt => rfl
  | prn A => rfl
  | cmp A B => exact absurd rfl (hi _ _)
  | data hd => exact hd.flags

/-- Settles O37: the flags across an instruction, then the two branches with E = 0. -/
theorem flagsPersistAcrossOtherInstructions : Obligations.FlagsPersistAcrossOtherInstructions := by
  refine ⟨fun _ _ _ => exec_flags_of_ne_cmp, rfl, fun A s hpc hfl => ?_⟩
  have he : s.flags.e = false := congrArg Flags.e hfl
  refine ⟨⟨_, exec_jeq A s, ?_⟩, ⟨_, exec_jne A s, ?_⟩⟩
  · simpa [he] using pcPlus_toNat (show s.pc.toNat + 2 < 512 by omega)
  · simpa [he] using targetOf_toNat (readReg A s)

theorem exec_out_cases {i : Instr} {s t : State} (h : exec i s = .next t) :
    t.out = s.out ∨ ∃ A : Reg, i = .prn (regByte A) ∧ t.out = s.out ++ [readReg A s] := by
  cases execCase_of_next h with
  | invalid hb => exact .inl rfl
  | hlt => exact .inl rfl
  | prn A => exact .inr ⟨A, rfl, rfl⟩
  | cmp A B => exact .inl rfl
  | data hd => exact .inl hd.out

/-- Settles O39. -/
theorem outputGrowsOnlyByPrn : Obligations.OutputGrowsOnlyByPrn :=
  ⟨rfl, fun _ _ _ => exec_out_cases⟩

/-! ## The packed flags and the reset state -/

/-- Settles O40, by the eight values of the three flags. -/
theorem packedFlagsLayout : Obligations.PackedFlagsLayout := by
  rintro ⟨e, l, g⟩
  revert e l g
  decide

theorem readReg_reset (r : Reg) : readReg r State.reset = 0 := by
  simp [readReg, State.reset, Vector.get_eq_getElem]

theorem reset_inv : Inv State.reset where
  mem := reset_mem_wf
  pc := Nat.zero_le _
  flags := by simp [Flags.legal, State.reset]
  status := statusLegal_of_running rfl

/-- Settles O41. -/
theorem resetState : Obligations.ResetState :=
  ⟨readReg_reset, rfl, rfl, rfl, rfl, rfl, rfl, reset_inv⟩

/-! ## Every state a run reaches -/

/-- A predicate that every step keeps holds of every state reached from one where it holds. -/
theorem Reaches.keeps {P : State → Prop} (hstep : ∀ t u, P t → Machine.step t = .next u → P u) {s t : State}
    (h : Reaches s t) (hs : P s) : P t := by
  induction h with
  | refl => exact hs
  | step t u _ htu ih => exact hstep t u ih htu

/-- A loaded image meets the invariant: it is the reset state with other bytes in memory. -/
theorem load_inv {image : List Byte} {s : State} (h : load image = some s) : Inv s := by
  unfold load at h
  split at h
  · cases h
    exact { reset_inv with mem := Memory.wf_store Memory.wf_nil 0 image }
  · cases h

theorem step_out_prefix {s t : State} (h : step s = .next t) : s.out <+: t.out := by
  obtain ⟨-, ⟨e, -, rfl⟩ | ⟨i, -, hx⟩⟩ := step_next_cases h
  · exact List.prefix_rfl
  · rcases exec_out_cases hx with ho | ⟨A, -, ho⟩
    · rw [ho]
    · rw [ho]; exact List.prefix_append _ _

theorem Reaches.inv {s t : State} (h : Reaches s t) (hs : Inv s) : Inv t :=
  h.keeps (fun _ _ => step_keeps_inv) hs

theorem Reaches.out_prefix {s t : State} (h : Reaches s t) : s.out <+: t.out :=
  h.keeps (P := fun v => s.out <+: v.out) (fun _ _ hv hstep => hv.trans (step_out_prefix hstep)) List.prefix_rfl

/-- Settles O44: the invariant and the output so far are each kept along a run. -/
theorem reachableStatesMeetTheInvariant : Obligations.ReachableStatesMeetTheInvariant := by
  intro image s t u hload hst htu
  have ht : Inv t := hst.inv (load_inv hload)
  exact ⟨ht, htu.inv ht, htu.out_prefix⟩

end Sys2Proof.Machine
end

section
/-! PROOFS: memory (spec/20_memory.md). What one instruction writes to memory, said once; then what the fetch sees of it, and
the memory primitives. -/

namespace Sys2Proof.Machine

/-! ## What an instruction writes -/

/-- The memory of `t` is that of `s`, or `i` pushes and the one byte below SP was written (R44). -/
def MemEffect (i : Instr) (s t : State) : Prop :=
  t.mem = s.mem ∨ (∃ x, i = .push x ∨ i = .call x) ∧ ∃ v, t.mem = Memory.set s.mem (pushAddr s) v

theorem exec_answers_memEffect (i : Instr) (s : State) : ∃ t, exec i s = .next t ∧ MemEffect i s t := by
  cases i using instr_regCases with
  | push A => exact ⟨_, exec_push A s, .inr ⟨⟨_, .inl rfl⟩, _, rfl⟩⟩
  | call A => exact ⟨_, exec_call A s, .inr ⟨⟨_, .inr rfl⟩, _, rfl⟩⟩
  | invalid i b hb => exact ⟨_, exec_of_firstBadReg hb s, .inl rfl⟩
  | hlt => exact ⟨_, exec_hlt s, .inl rfl⟩
  | ldi A imm => exact ⟨_, exec_ldi A imm s, .inl rfl⟩
  | prn A => exact ⟨_, exec_prn A s, .inl rfl⟩
  | add A B => exact ⟨_, exec_add A B s, .inl rfl⟩
  | mul A B => exact ⟨_, exec_mul A B s, .inl rfl⟩
  | cmp A B => exact ⟨_, exec_cmp A B s, .inl rfl⟩
  | pop A => exact ⟨_, exec_pop A s, .inl rfl⟩
  | ret => exact ⟨_, exec_ret s, .inl rfl⟩
  | jmp A => exact ⟨_, exec_jmp A s, .inl rfl⟩
  | jeq A => exact ⟨_, exec_jeq A s, .inl rfl⟩
  | jne A => exact ⟨_, exec_jne A s, .inl rfl⟩

theorem memEffect_of_next {i : Instr} {s t : State} (h : exec i s = .next t) : MemEffect i s t := by
  obtain ⟨u, hu, he⟩ := exec_answers_memEffect i s
  rw [hu] at h
  cases h
  exact he

/-- Settles O32: a byte that changed rules out that memory is the same, and of a written byte every other address. -/
theorem onlyPushAndCallWriteMemory : Obligations.OnlyPushAndCallWriteMemory := by
  intro i s t a h hne
  rcases memEffect_of_next h with hsame | ⟨hi, v, hset⟩
  · exact absurd (by rw [hsame]) hne
  · refine ⟨?_, hi⟩
    by_contra ha
    exact hne (by rw [hset, Memory.get_set_ne _ _ ha])

/-! ## The fetch -/

theorem decode_push (A : Reg) (x : Byte) : decode Opc.push (regByte A) x = .ok (.push (regByte A)) :=
  decode_eq_ok_iff.mpr ⟨lookup_push _ _, by simp [WellFormed, Instr.regBytes]⟩

theorem step_push {A : Reg} {s : State} (hrun : s.status = .running) (hpc : s.pc.toNat ≤ 253)
    (hir : irAt s = Opc.push) (hA : opAAt s = regByte A) :
    step s = .next (setPc (pcPlus 2 s)
      (setByte (pushAddr s) (readReg A s) (writeReg Config.spIndex (spDown s) s))) := by
  have hd : decode (irAt s) (opAAt s) (opBAt s) = .ok (.push (regByte A)) := by rw [hir, hA, decode_push]
  rw [step_of_ok hrun (fetchDecode_of_ok hpc hd), exec_push]

/-- Settles O36: after the PUSH pc is at the byte it wrote, and the two bytes above that are as before. -/
theorem pushedBytesAreFetchedAtOnce : Obligations.PushedBytesAreFetchedAtOnce := by
  intro A s i hrun hpc hir hA haddr hdec
  refine ⟨_, step_push hrun (by omega) hir hA, step_of_ok (by simpa using hrun) ?_⟩
  have hp : (pcPlus 2 s).toNat = s.pc.toNat + 2 := pcPlus_toNat (by omega)
  refine fetchDecode_of_ok (by rw [setPc_pc]; omega) ?_
  simpa [irAt, opAAt, opBAt, hp, haddr, Memory.get_set, Nat.add_assoc] using hdec

theorem takeException_outOfBounds (n : Nat) (s : State) :
    takeException (outOfBounds n) s = abortedWith .outOfBoundsMemoryAccess n s := rfl

/-- Settles O24: the fetch raises, and the step takes its exception in the state before. -/
theorem fetchAboveTheTopFaults : Obligations.FetchAboveTheTopFaults := by
  intro s hrun hpc
  rw [step_of_error hrun (fetchDecode_of_ge hpc), takeException_outOfBounds]

/-! ## The primitives -/

theorem memSameExcept_setByte (a : Nat) (v : Byte) (s : State) : MemSameExcept [a] s (setByte a v s) := by
  intro b hb
  exact Memory.get_set_ne s.mem v (List.ne_of_not_mem_cons hb)

/-- Settles O31, on either side of address 255; the write answers the state of `setByte`. -/
theorem memoryPrimitives : Obligations.MemoryPrimitives := by
  refine fun a v s => ⟨fun h => ⟨memRead_of_ge h, memWrite_of_ge h⟩, fun h => ?_⟩
  have hlt : a < 256 := Nat.lt_succ_of_le h
  exact ⟨memRead_of_lt hlt, setByte a v s, memWrite_of_lt hlt, Memory.get_set_self s.mem a v,
    memSameExcept_setByte a v s, rfl⟩

end Sys2Proof.Machine
end

section
/-! PROOFS: the encoding (spec/30_encoding.md). What the lookup and decode answer, each tied to the bytes of `encode` and to
the register bytes; then the statements, each read off from that. -/

namespace Sys2Proof

open Sys2Proof.Machine

/-! ## The encoding's shape -/

/-- The encoding's first byte, its opcode's membership in the map and its length, for every instruction. -/
theorem encodeShape (i : Instr) : Laws.EncodeShape.Statement i := by
  cases i with
  | hlt => exact Laws.EncodeShape.hlt
  | ldi a imm => exact Laws.EncodeShape.ldi a imm
  | prn a => exact Laws.EncodeShape.prn a
  | add a b => exact Laws.EncodeShape.add a b
  | mul a b => exact Laws.EncodeShape.mul a b
  | cmp a b => exact Laws.EncodeShape.cmp a b
  | push a => exact Laws.EncodeShape.push a
  | pop a => exact Laws.EncodeShape.pop a
  | call a => exact Laws.EncodeShape.call a
  | ret => exact Laws.EncodeShape.ret
  | jmp a => exact Laws.EncodeShape.jmp a
  | jeq a => exact Laws.EncodeShape.jeq a
  | jne a => exact Laws.EncodeShape.jne a

theorem opcode_mem_opcodes (i : Instr) : i.opcode ∈ opcodes := (encodeShape i).2.1

theorem encode_length (i : Instr) : (encode i).length = instrLen i.opcode := (encodeShape i).2.2

/-- Bytes that begin with the encoding of `i` begin with its opcode. -/
theorem eq_opcode_of_encode_prefix {i : Instr} {ir : Byte} {bs : List Byte} (h : encode i <+: ir :: bs) :
    ir = i.opcode := by
  obtain ⟨operands, henc⟩ := List.head?_eq_some_iff.mp (encodeShape i).1
  rw [henc] at h
  exact (List.cons_prefix_cons.mp h).1.symm

/-- The length is opcode bits 7:6 plus one, as a number (R62). -/
theorem instrLen_eq (ir : Byte) : instrLen ir = ir.toNat / 64 + 1 := by
  have hir := ir.isLt
  simp only [instrLen, operandCount, BitVec.extractLsb'_toNat, Nat.shiftRight_eq_div_pow]
  omega

/-- No opcode of the map has bits 7:6 equal to 3 (R69). -/
theorem opcodeHighBits_lt_three_of_mem : ∀ ir ∈ opcodes, ir.toNat / 64 < 3 := by decide

theorem encode_length_le (i : Instr) : (encode i).length ≤ 3 := by
  rw [encode_length, instrLen_eq]
  exact opcodeHighBits_lt_three_of_mem _ (opcode_mem_opcodes i)

/-! ## What the lookup and decode answer -/

/-- With the instruction's own opcode the lookup reads its operands back exactly where they lie in its encoding. -/
theorem lookup_own_opcode_iff (i : Instr) (a b : Byte) :
    lookup i.opcode a b = some i ↔ encode i <+: [i.opcode, a, b] := by
  cases i <;> simp [Instr.opcode, encode, eq_comm]

/-- The lookup answers `i` exactly on the bytes that begin with the encoding of `i`. -/
theorem lookup_eq_some_iff {ir a b : Byte} {i : Instr} : lookup ir a b = some i ↔ encode i <+: [ir, a, b] := by
  constructor
  · intro h
    obtain rfl := lookup_opcode h
    exact (lookup_own_opcode_iff i a b).mp h
  · intro h
    obtain rfl := eq_opcode_of_encode_prefix h
    exact (lookup_own_opcode_iff i a b).mpr h

theorem lookup_eq_none_iff {ir a b : Byte} : lookup ir a b = none ↔ ir ∉ opcodes := by
  refine ⟨fun h hm => ?_, fun h => lookup_of_notMem h a b⟩
  simp only [opcodes, List.mem_cons, List.not_mem_nil, or_false] at hm
  rcases hm with rfl | rfl | rfl | rfl | rfl | rfl | rfl | rfl | rfl | rfl | rfl | rfl | rfl <;> cases h

theorem decode_of_notMem {ir : Byte} (h : ir ∉ opcodes) (a b : Byte) : decode ir a b = .error (.unknownOpcode ir) := by
  rw [decode, lookup_of_notMem h]

/-- Decode sees the operand bytes only through the lookup. -/
theorem decode_congr {ir a b a' b' : Byte} (h : lookup ir a b = lookup ir a' b') : decode ir a b = decode ir a' b' := by
  simp only [decode, h]

theorem decode_of_lookup {ir a b : Byte} {i : Instr} (h : lookup ir a b = some i)
    (hw : WellFormed i = true := by simp [WellFormed, Instr.regBytes]) : decode ir a b = .ok i :=
  decode_eq_ok_iff.mpr ⟨h, hw⟩

theorem decode_of_firstBadReg {ir a b c : Byte} {i : Instr} (h : lookup ir a b = some i)
    (hc : i.firstBadReg = some c) : decode ir a b = .error (.invalidRegister c) := by
  simp only [decode, h, hc]

/-! ## The statements about decode and encode -/

/-- A list of up to three bytes begins the three bytes the decoder takes from it and what follows it. -/
theorem isPrefix_three_getD {l : List Byte} (h : l.length ≤ 3) (rest : List Byte) :
    l <+: [(l ++ rest).getD 0 0, (l ++ rest).getD 1 0, (l ++ rest).getD 2 0] := by
  match l, h with
  | [], _ => exact List.nil_prefix
  | [x], _ => simp
  | [x, y], _ => simp
  | [x, y, z], _ => simp

/-- Settles O1: the three bytes decoded begin with the encoding. -/
theorem decodeOfEncodeIsTheInstruction : Obligations.DecodeOfEncodeIsTheInstruction :=
  fun i rest hw => decode_eq_ok_iff.mpr ⟨lookup_eq_some_iff.mpr (isPrefix_three_getD (encode_length_le i) rest), hw⟩

/-- Settles O2, by what an accepting decode says of the lookup. -/
theorem decodeAcceptsOnlyEncodings : Obligations.DecodeAcceptsOnlyEncodings := by
  intro ir a b i h
  obtain ⟨hlookup, hw⟩ := decode_eq_ok_iff.mp h
  exact ⟨hw, lookup_eq_some_iff.mp hlookup⟩

/-- Settles O3, row by row: each literal of R66 is the model's opcode byte, and register bytes pass the check. -/
theorem opcodeMapRows : Obligations.OpcodeMapRows := by
  intro A B x y
  exact ⟨decode_of_lookup (lookup_hlt _ _), decode_of_lookup (lookup_ldi _ _), decode_of_lookup (lookup_prn _ _),
    decode_of_lookup (lookup_add _ _), decode_of_lookup (lookup_mul _ _), decode_of_lookup (lookup_cmp _ _),
    decode_of_lookup (lookup_push _ _), decode_of_lookup (lookup_pop _ _), decode_of_lookup (lookup_call _ _),
    decode_of_lookup (lookup_ret _ _), decode_of_lookup (lookup_jmp _ _), decode_of_lookup (lookup_jeq _ _),
    decode_of_lookup (lookup_jne _ _)⟩

/-- Settles O4: R69's list is the model's map, and the counts are those of the values outside and inside that list. -/
theorem otherOpcodesAreUnknown : Obligations.OtherOpcodesAreUnknown := by
  simp only [Obligations.OtherOpcodesAreUnknown, ne_eq, lookup_eq_none_iff, not_not]
  refine ⟨fun ir a b h => decode_of_notMem h a b, ?_, ?_, ?_, ?_, ?_, fun a b => decode_of_notMem (by decide) a b⟩ <;>
    decide +kernel

/-- Settles O5: the length by bits 7:6, which the encoding has, and which are not 3 in the map. -/
theorem lengthComesFromOpcodeBits : Obligations.LengthComesFromOpcodeBits := by
  refine ⟨instrLen_eq, fun i => ⟨?_, encode_length_le i⟩, fun ir a b h => decode_of_notMem (fun hm => ?_) a b⟩
  · rw [encode_length, instrLen_eq]
  · exact absurd h (opcodeHighBits_lt_three_of_mem ir hm).ne

/-- Settles O6: the lookup drops the ignored bytes, and the step at 254 is the fetch fault of R87 at that address. -/
theorem ignoredBytesHaveNoEffect : Obligations.IgnoredBytesHaveNoEffect := by
  refine ⟨fun ir hir x y x' y' => decode_congr ?_, fun ir hir a y y' => decode_congr ?_, fun s hrun hpc => ?_⟩
  · simp only [List.mem_cons, List.not_mem_nil, or_false] at hir
    rcases hir with rfl | rfl <;> rfl
  · simp only [List.mem_cons, List.not_mem_nil, or_false] at hir
    rcases hir with rfl | rfl | rfl | rfl | rfl | rfl | rfl <;> rfl
  · have hstep := fetchAboveTheTopFaults s hrun hpc.ge
    rwa [hpc] at hstep

/-! ## The register check -/

theorem validReg_eq_false_iff (b : Byte) : validReg b = false ↔ 7 < b.toNat := by
  rw [← Bool.not_eq_true, validReg_iff]
  omega

/-- A first register byte above 7 is the one reported, whatever follows it. -/
theorem firstBadReg_of_first {i : Instr} {a : Byte} {bs : List Byte} (hi : i.regBytes = a :: bs) (ha : 7 < a.toNat) :
    i.firstBadReg = some a := by
  simp [Instr.firstBadReg, hi, (validReg_eq_false_iff a).mpr ha]

/-- A second register byte above 7 is the one reported where the first names a register. -/
theorem firstBadReg_of_second {i : Instr} {a b : Byte} (hi : i.regBytes = [a, b]) (ha : a.toNat ≤ 7)
    (hb : 7 < b.toNat) : i.firstBadReg = some b := by
  simp [Instr.firstBadReg, hi, (validReg_iff a).mpr (by omega), (validReg_eq_false_iff b).mpr hb]

/-- The eleven opcodes with a register field read their first operand byte as register A (R64, R66). -/
theorem lookup_first_regByte {ir : Byte}
    (h : ir ∈ ([0x82, 0x47, 0x45, 0x46, 0x50, 0x54, 0x55, 0x56, 0xA0, 0xA2, 0xA7] : List Byte)) (a b : Byte) :
    ∃ i bs, lookup ir a b = some i ∧ i.regBytes = a :: bs := by
  simp only [List.mem_cons, List.not_mem_nil, or_false] at h
  rcases h with rfl | rfl | rfl | rfl | rfl | rfl | rfl | rfl | rfl | rfl | rfl <;> exact ⟨_, _, rfl, rfl⟩

/-- ADD, MUL and CMP read both operand bytes as registers (R64, R66). -/
theorem lookup_both_regBytes {ir : Byte} (h : ir ∈ ([0xA0, 0xA2, 0xA7] : List Byte)) (a b : Byte) :
    ∃ i, lookup ir a b = some i ∧ i.regBytes = [a, b] := by
  simp only [List.mem_cons, List.not_mem_nil, or_false] at h
  rcases h with rfl | rfl | rfl <;> exact ⟨_, rfl, rfl⟩

/-- Settles O7: the register bytes the lookup reads, and which of them the check reports. -/
theorem registerBytesAreCheckedAtDecode : Obligations.RegisterBytesAreCheckedAtDecode := by
  refine ⟨fun ir hir a b ha => ?_, fun ir hir a b ha hb => ?_, fun a b ha => ?_⟩
  · obtain ⟨i, bs, hlookup, hregs⟩ := lookup_first_regByte hir a b
    exact decode_of_firstBadReg hlookup (firstBadReg_of_first hregs ha)
  · obtain ⟨i, hlookup, hregs⟩ := lookup_both_regBytes hir a b
    exact decode_of_firstBadReg hlookup (firstBadReg_of_second hregs ha hb)
  · rw [eq_regByte (show a.toNat < 8 by omega)]
    exact decode_of_lookup (lookup_ldi _ b)

end Sys2Proof
end

section
/-! PROOFS: the execution cycle (spec/40_execution_cycle.md). What a step does on each way through fetch and decode, how an
instruction leaves pc, and how the loop ends; then the statements, each read off from that. -/

namespace Sys2Proof.Machine

/-! ## Exceptions of decode, as the statements write them -/

theorem takeException_invalidRegister (b : Byte) (s : State) :
    takeException (invalidRegister b) s = abortedWith .invalidRegister b.toNat s := by
  simp only [takeException, invalidRegister, abortedWith, BitVec.ofNat_toNat]

theorem takeException_unknownOpcode (ir : Byte) (s : State) :
    takeException (decodeRaise (.unknownOpcode ir)) s = abortedWith .unknownOpcode ir.toNat s := by
  simp only [takeException, decodeRaise, abortedWith, BitVec.ofNat_toNat]

/-- Settles O21: the register check reports the first bad byte, and the instruction does nothing but take that fault. -/
theorem invalidRegisterIsTaken : Obligations.InvalidRegisterIsTaken := by
  refine fun a b s => ⟨fun ha i hi => ?_, fun ha hb i hi => ?_⟩
  · have hhead : i.regBytes.head? = some a := by
      revert i
      simp [Instr.regBytes]
    obtain ⟨bs, hregs⟩ := List.head?_eq_some_iff.mp hhead
    rw [exec_of_firstBadReg (firstBadReg_of_first hregs ha), takeException_invalidRegister]
  · have hregs : i.regBytes = [a, b] := by
      revert i
      simp [Instr.regBytes]
    rw [exec_of_firstBadReg (firstBadReg_of_second hregs ha hb), takeException_invalidRegister]

/-! ## When a step exists -/

theorem step_of_halted {s : State} (h : s.status = .halted) : step s = .fault .halted := by
  simp only [step, h]

theorem step_of_aborted {s : State} {r : FaultRecord} (h : s.status = .aborted r) : step s = .fault (.aborted r) := by
  simp only [step, h]

/-- In Running a step always answers a next state: an exception is one, and every instruction answers one. -/
theorem step_answers {s : State} (h : s.status = .running) : ∃ t, step s = .next t := by
  cases hf : fetchDecode s with
  | error e => exact ⟨_, step_of_error h hf⟩
  | ok i =>
    obtain ⟨t, ht, -⟩ := exec_answers i s
    exact ⟨t, (step_of_ok h hf).trans ht⟩

theorem step_ne_refused (s : State) (r : Refusal) : step s ≠ .refused r := by
  cases hst : s.status with
  | halted => simp [step_of_halted hst]
  | aborted f => simp [step_of_aborted hst]
  | running =>
    obtain ⟨t, ht⟩ := step_answers hst
    simp [ht]

/-- Settles O23, by the three values of status. -/
theorem aStepExistsOnlyWhenRunning : Obligations.AStepExistsOnlyWhenRunning :=
  fun s => ⟨⟨fun ⟨_, h⟩ => (step_next_cases h).1, step_answers⟩, step_of_halted, fun _ => step_of_aborted,
    step_ne_refused s⟩

/-! ## A step below address 254 -/

/-- Settles O22: fetch and decode answer `i`, and the step is its meaning. -/
theorem stepRunsTheDecodedInstruction : Obligations.StepRunsTheDecodedInstruction :=
  fun _ _ hrun hpc hd => step_of_ok hrun (fetchDecode_of_ok hpc hd)

theorem step_of_unknownOpcode {s : State} (hrun : s.status = .running) (hpc : s.pc.toNat ≤ 253)
    (hop : irAt s ∉ opcodes) : step s = .next (abortedWith .unknownOpcode (irAt s).toNat s) := by
  rw [step_of_error hrun (fetchDecode_of_error hpc (decode_of_notMem hop _ _)), takeException_unknownOpcode]

theorem step_of_invalidRegister {s : State} {b : Byte} (hrun : s.status = .running) (hpc : s.pc.toNat ≤ 253)
    (hd : decode (irAt s) (opAAt s) (opBAt s) = .error (.invalidRegister b)) :
    step s = .next (abortedWith .invalidRegister b.toNat s) := by
  rw [step_of_error hrun (fetchDecode_of_error hpc hd), decodeRaise, takeException_invalidRegister]

/-- Settles O25: the statement's thirteen literals are the model's map. -/
theorem unknownOpcodeIsTaken : Obligations.UnknownOpcodeIsTaken :=
  fun _ => step_of_unknownOpcode

/-! ## The order of the checks -/

/-- Every opcode of the map but those of HLT and RET has a register A (R66). -/
theorem mem_registerOpcodes_of_mem : ∀ ir ∈ opcodes, ir ∉ ([0x01, 0x11] : List Byte) →
    ir ∈ ([0x82, 0x47, 0x45, 0x46, 0x50, 0x54, 0x55, 0x56, 0xA0, 0xA2, 0xA7] : List Byte) := by
  decide

theorem notMem_noOperandOpcodes_of_aluOpcode :
    ∀ ir ∈ ([0xA0, 0xA2, 0xA7] : List Byte), ir ∉ ([0x01, 0x11] : List Byte) := by
  decide

/-- A register byte of a looked-up instruction is the first operand byte, and then the opcode is not HLT's or RET's, or it
is the second, and then the opcode is ADD's, MUL's or CMP's (R64, R66). -/
theorem regBytes_of_lookup_cases {ir a b c : Byte} {i : Instr} (h : lookup ir a b = some i) (hc : c ∈ i.regBytes) :
    (ir ∉ ([0x01, 0x11] : List Byte) ∧ c = a) ∨ (ir ∈ ([0xA0, 0xA2, 0xA7] : List Byte) ∧ c = b) := by
  obtain rfl := lookup_opcode h
  cases i with
  | hlt | ret => cases hc
  | add x y | mul x y | cmp x y =>
    cases h
    rcases List.mem_pair.mp hc with rfl | rfl
    · exact .inl ⟨by simp [Instr.opcode, Opc.add, Opc.mul, Opc.cmp], rfl⟩
    · exact .inr ⟨by simp [Instr.opcode, Opc.add, Opc.mul, Opc.cmp], rfl⟩
  | ldi x y | prn x | push x | pop x | call x | jmp x | jeq x | jne x =>
    cases h
    obtain rfl := List.mem_singleton.mp hc
    exact .inl ⟨by simp [Instr.opcode, Opc.ldi, Opc.prn, Opc.push, Opc.pop, Opc.call, Opc.jmp, Opc.jeq, Opc.jne], rfl⟩

/-- Decode accepts an opcode of the map whose operand bytes pass the register check of its format. -/
theorem decode_ok_of_checks {ir a b : Byte} (hop : ir ∈ opcodes)
    (hA : ¬(ir ∉ ([0x01, 0x11] : List Byte) ∧ 7 < a.toNat))
    (hB : ¬(ir ∈ ([0xA0, 0xA2, 0xA7] : List Byte) ∧ 7 < b.toNat)) : ∃ i, decode ir a b = .ok i := by
  cases hd : decode ir a b with
  | ok i => exact ⟨i, rfl⟩
  | error e =>
    rcases decode_error_cases hd with ⟨hnone, -⟩ | ⟨i, c, hi, hbad, -⟩
    · exact absurd hop (lookup_eq_none_iff.mp hnone)
    · obtain ⟨hgt, hm⟩ := firstBadReg_some hbad
      rcases regBytes_of_lookup_cases hi hm with ⟨hir, rfl⟩ | ⟨hir, rfl⟩
      · exact absurd ⟨hir, hgt⟩ hA
      · exact absurd ⟨hir, hgt⟩ hB

/-- Settles O26: one branch of the chain after the other, by what fetch and decode answer there. -/
theorem faultsAreReportedInOrder : Obligations.FaultsAreReportedInOrder := by
  intro s hrun hpc
  obtain ⟨hfirst, hsecond, -⟩ := registerBytesAreCheckedAtDecode
  split_ifs with hfetch hop hA hB
  · have hstep := fetchAboveTheTopFaults s hrun hfetch
    rwa [Nat.max_eq_left hpc] at hstep
  · obtain ⟨hir, ha⟩ := hA
    exact step_of_invalidRegister hrun (by omega)
      (hfirst _ (mem_registerOpcodes_of_mem _ hop hir) _ _ ha)
  · obtain ⟨hir, hb⟩ := hB
    have ha : (opAAt s).toNat ≤ 7 :=
      not_lt.mp fun ha => hA ⟨notMem_noOperandOpcodes_of_aluOpcode _ hir, ha⟩
    exact step_of_invalidRegister hrun (by omega) (hsecond _ hir _ _ ha hb)
  · obtain ⟨i, hd⟩ := decode_ok_of_checks hop hA hB
    exact ⟨i, hd, (lookup_opcode (decode_eq_ok_iff.mp hd).1).symm,
      stepRunsTheDecodedInstruction s i hrun (by omega) hd⟩
  · exact step_of_unknownOpcode hrun (by omega) hop

/-! ## The pc after an instruction -/

/-- The PC policy is opcode bit 4, as a number (R63). -/
theorem handlerSetsPc_eq (ir : Byte) : handlerSetsPc ir = decide (ir.toNat / 16 % 2 = 1) := by
  simp [handlerSetsPc, BitVec.getLsbD, Nat.testBit_eq_decide_div_mod_eq]

theorem instrLen_le (ir : Byte) : instrLen ir ≤ 4 := by
  have hir := ir.isLt
  rw [instrLen_eq]
  omega

/-- The opcodes of the map with bit 4 set are those of the five control transfers (R66). -/
theorem mem_transferOpcodes_of_bit4 :
    ∀ ir ∈ opcodes, ir.toNat / 16 % 2 = 1 → ir ∈ ([0x50, 0x11, 0x54, 0x55, 0x56] : List Byte) := by
  decide

/-- The pc that an instruction with opcode `ir`, begun in `s`, leaves in `t`: advanced by the length, or set by the handler
to an address (R92, R93). -/
def PcEffect (ir : Byte) (s t : State) : Prop :=
  (handlerSetsPc ir = false ∧ t.pc = pcPlus (instrLen ir) s) ∨ (handlerSetsPc ir = true ∧ t.pc.toNat ≤ 255)

theorem pcEffect_advance {ir : Byte} {n : Nat} (hbit : handlerSetsPc ir = false) (hlen : instrLen ir = n)
    (s u : State) : PcEffect ir s (setPc (pcPlus n s) u) :=
  .inl ⟨hbit, by rw [hlen, setPc_pc]⟩

theorem pcEffect_jump {ir : Byte} (hbit : handlerSetsPc ir = true) {p : PcWord} (hle : p.toNat ≤ 255) (s u : State) :
    PcEffect ir s (setPc p u) :=
  .inr ⟨hbit, hle⟩

/-- Every well-formed instruction at pc up to 253 answers a next state, with pc as `PcEffect` says. -/
theorem exec_answers_pcEffect (i : Instr) {s : State} (hw : WellFormed i = true) (hpc : s.pc.toNat ≤ 253) :
    ∃ t, exec i s = .next t ∧ PcEffect i.opcode s t := by
  have hnext : (pcPlus 2 s).toNat ≤ 255 := (pcPlus_toNat_le 2 s).trans (by omega)
  cases i using instr_regCases with
  | invalid i b hb => rw [(firstBadReg_eq_none_iff i).mpr hw] at hb; cases hb
  | hlt => exact ⟨_, exec_hlt s, pcEffect_advance (ir := Opc.hlt) rfl rfl _ _⟩
  | ldi A imm => exact ⟨_, exec_ldi A imm s, pcEffect_advance (ir := Opc.ldi) rfl rfl _ _⟩
  | prn A => exact ⟨_, exec_prn A s, pcEffect_advance (ir := Opc.prn) rfl rfl _ _⟩
  | add A B => exact ⟨_, exec_add A B s, pcEffect_advance (ir := Opc.add) rfl rfl _ _⟩
  | mul A B => exact ⟨_, exec_mul A B s, pcEffect_advance (ir := Opc.mul) rfl rfl _ _⟩
  | cmp A B => exact ⟨_, exec_cmp A B s, pcEffect_advance (ir := Opc.cmp) rfl rfl _ _⟩
  | push A => exact ⟨_, exec_push A s, pcEffect_advance (ir := Opc.push) rfl rfl _ _⟩
  | pop A => exact ⟨_, exec_pop A s, pcEffect_advance (ir := Opc.pop) rfl rfl _ _⟩
  | call A => exact ⟨_, exec_call A s, pcEffect_jump (ir := Opc.call) rfl (targetOf_toNat_le _) _ _⟩
  | ret => exact ⟨_, exec_ret s, pcEffect_jump (ir := Opc.ret) rfl (targetOf_toNat_le _) _ _⟩
  | jmp A => exact ⟨_, exec_jmp A s, pcEffect_jump (ir := Opc.jmp) rfl (targetOf_toNat_le _) _ _⟩
  | jeq A =>
    refine ⟨_, exec_jeq A s, pcEffect_jump (ir := Opc.jeq) rfl ?_ _ _⟩
    split
    · exact targetOf_toNat_le _
    · exact hnext
  | jne A =>
    refine ⟨_, exec_jne A s, pcEffect_jump (ir := Opc.jne) rfl ?_ _ _⟩
    split
    · exact hnext
    · exact targetOf_toNat_le _

/-- Settles O30: the dispatcher's advance by bit 4, then the pc of every instruction by its opcode. -/
theorem pcPolicyFollowsOpcodeBits : Obligations.PcPolicyFollowsOpcodeBits := by
  refine ⟨fun ir s u hpc => ⟨fun hbit => ?_, fun hbit => ?_⟩, fun i s hw hpc => ?_⟩
  · have hlen := instrLen_le ir
    have hadv : (pcPlus (instrLen ir) u).toNat = u.pc.toNat + (ir.toNat / 64 + 1) := by
      rw [pcPlus_toNat (by omega), instrLen_eq]
    exact ⟨setPc (pcPlus (instrLen ir) u) u,
      by rw [finish_ok, advance_of_auto (by simp [handlerSetsPc_eq, hbit])], hadv, rfl⟩
  · rw [finish_ok, advance_of_handler (by simp [handlerSetsPc_eq, hbit])]
  · obtain ⟨t, ht, heff⟩ := exec_answers_pcEffect i hw hpc
    simp only [PcEffect, handlerSetsPc_eq, decide_eq_false_iff_not, decide_eq_true_eq] at heff
    refine ⟨t, ht, ?_⟩
    rcases heff with ⟨hauto, hadv⟩ | ⟨hset, hle⟩
    · have hlen := instrLen_le i.opcode
      refine ⟨fun _ => ?_, fun hbit => absurd hbit hauto⟩
      rw [hadv, pcPlus_toNat (by omega), instrLen_eq]
    · exact ⟨fun hbit => by omega, fun hbit => ⟨hle, mem_transferOpcodes_of_bit4 _ (opcode_mem_opcodes i) hbit⟩⟩

/-! ## The loop -/

/-- The end names the status of the state it holds; a missing step is no end of a run (R97, R98). -/
def RunEnd.NamesStatus : RunEnd → Prop
  | .halted t => t.status = .halted
  | .aborted t => ∃ r, t.status = .aborted r
  | .outOfFuel t => t.status = .running
  | .noNext _ => False

/-- Outside Running no step is left, so fuel has no part in the end (R85, R97). -/
theorem runFor_of_not_running {s : State} (h : s.status ≠ .running) (n : Nat) : runFor n s = runFor 0 s := by
  cases hst : s.status with
  | running => exact absurd hst h
  | halted => rw [runFor_halted hst, runFor_halted hst]
  | aborted r => rw [runFor_aborted hst, runFor_aborted hst]

theorem runFor_zero_namesStatus (s : State) : (runFor 0 s).NamesStatus := by
  cases hst : s.status with
  | running => rw [runFor_zero hst]; exact hst
  | halted => rw [runFor_halted hst]; exact hst
  | aborted r => rw [runFor_aborted hst]; exact ⟨r, hst⟩

theorem runFor_namesStatus {n : Nat} {s : State} {e : RunEnd} (h : runFor n s = e) : e.NamesStatus := by
  subst h
  induction n generalizing s with
  | zero => exact runFor_zero_namesStatus s
  | succ n ih =>
    by_cases hst : s.status = .running
    · obtain ⟨t, ht⟩ := step_answers hst
      rw [runFor_succ ht]
      exact ih
    · rw [runFor_of_not_running hst]
      exact runFor_zero_namesStatus s

/-- More fuel does not change how a run ended. -/
theorem runFor_add {n : Nat} {s : State} (h : ∀ t, runFor n s ≠ .outOfFuel t) (k : Nat) :
    runFor (n + k) s = runFor n s := by
  induction n generalizing s with
  | zero => exact runFor_of_not_running (fun hst => h s (runFor_zero hst)) _
  | succ n ih =>
    by_cases hst : s.status = .running
    · obtain ⟨t, ht⟩ := step_answers hst
      rw [runFor_succ ht] at h
      rw [Nat.succ_add, runFor_succ ht, runFor_succ ht, ih h]
    · rw [runFor_of_not_running hst, runFor_of_not_running hst (n + 1)]

theorem runFor_of_selfLoop {s : State} (h : step s = .next s) (n : Nat) : runFor n s = .outOfFuel s := by
  induction n with
  | zero => exact runFor_zero (step_next_cases h).1
  | succ n ih => rw [runFor_succ h, ih]

/-- Settles O45: every end names the status of its state, and a run that ended keeps its end under more fuel. -/
theorem outOfFuelIsNotAnEnd : Obligations.OutOfFuelIsNotAnEnd :=
  ⟨fun _ _ _ h => runFor_namesStatus h,
    fun _ _ _ h => ⟨runFor_namesStatus h, fun k => (runFor_add (by simp [h]) k).trans h⟩,
    fun _ _ _ h => ⟨runFor_namesStatus h, fun k => (runFor_add (by simp [h]) k).trans h⟩,
    fun _ _ _ h => runFor_namesStatus h, fun _ => runFor_of_selfLoop⟩

end Sys2Proof.Machine
end

section
/-! PROOFS: the ALU (spec/41_alu.md). What an instruction that writes a byte leaves, said once for ADD and MUL; what the
comparison's flags say; which kinds fetch and decode raise; then the statements. -/

namespace Sys2Proof.Machine

/-! ## ADD and MUL -/

theorem regsSameExcept_writeReg (r : Reg) (v : Byte) (s : State) : RegsSameExcept [r] s (writeReg r v s) :=
  fun _ hq => readReg_writeReg_ne v s (List.ne_of_not_mem_cons hq)

/-- A three-byte instruction whose whole effect is to write the number `n`, narrowed to a byte, into register `A` and to
advance pc: result, completion and frame (R92, R105). -/
theorem answers_of_writeReg_advance {i : Instr} {A : Reg} {n : Nat} {s : State} (hpc : s.pc.toNat ≤ 253)
    (h : exec i s = .next (setPc (pcPlus 3 s) (writeReg A (BitVec.ofNat 8 n) s))) :
    ∃ t, exec i s = .next t ∧ (readReg A t).toNat = n % 256 ∧ t.pc.toNat = s.pc.toNat + 3 ∧
      RegsSameExcept [A] s t ∧ MemSameExcept [] s t ∧ t.flags = s.flags ∧ t.status = s.status ∧ t.out = s.out := by
  refine ⟨_, h, ?_, pcPlus_toNat (by omega), regsSameExcept_writeReg A _ s, fun _ _ => rfl, rfl, rfl, rfl⟩
  rw [readReg_setPc, readReg_writeReg_self, BitVec.toNat_ofNat]

/-- Settles O8: the byte written is the sum. -/
theorem addWritesTheSumMod256 : Obligations.AddWritesTheSumMod256 :=
  fun A B s hpc => ⟨rfl, decode_of_lookup (lookup_add _ _), answers_of_writeReg_advance hpc (exec_add A B s)⟩

/-- Settles O9: the byte written is the product. -/
theorem mulWritesTheProductMod256 : Obligations.MulWritesTheProductMod256 :=
  fun A B s hpc => ⟨rfl, decode_of_lookup (lookup_mul _ _), answers_of_writeReg_advance hpc (exec_mul A B s)⟩

/-! ## CMP -/

@[simp] theorem compareFlags_e_iff (a b : Byte) : (compareFlags a b).e = true ↔ a.toNat = b.toNat :=
  beq_iff_eq

@[simp] theorem compareFlags_l_iff (a b : Byte) : (compareFlags a b).l = true ↔ a.toNat < b.toNat :=
  decide_eq_true_iff

@[simp] theorem compareFlags_g_iff (a b : Byte) : (compareFlags a b).g = true ↔ b.toNat < a.toNat :=
  decide_eq_true_iff

/-- Exactly one flag of a comparison is set, by trichotomy (R110). -/
theorem compareFlags_exactlyOne (a b : Byte) :
    ((compareFlags a b).e, (compareFlags a b).l, (compareFlags a b).g) ∈
      [(true, false, false), (false, true, false), (false, false, true)] := by
  rcases Nat.lt_trichotomy a.toNat b.toNat with h | h | h
  · simp [compareFlags, h, h.ne, h.le]
  · simp [compareFlags, h]
  · simp [compareFlags, h, h.ne', h.le]

/-- Settles O10: the flags are those of the comparison, and registers and memory are untouched. -/
theorem cmpWritesAllThreeFlags : Obligations.CmpWritesAllThreeFlags :=
  fun A B s _ => ⟨rfl, decode_of_lookup (lookup_cmp _ _), _, exec_cmp A B s,
    compareFlags_e_iff _ _, compareFlags_l_iff _ _, compareFlags_g_iff _ _, compareFlags_exactlyOne _ _,
    pcPlus_toNat (by omega), fun _ _ => rfl, fun _ _ => rfl, rfl, rfl⟩

/-! ## UnsupportedALUOperation -/

theorem decodeRaise_kind_ne_unsupported (e : DecodeError) : (decodeRaise e).kind ≠ .unsupportedALUOperation := by
  cases e with
  | unknownOpcode ir => simp [decodeRaise]
  | invalidRegister b => simp [decodeRaise, invalidRegister]

/-- Fetch and decode raise no fault of the ALU (R173, R174). -/
theorem fetchDecode_kind_ne_unsupported {s : State} {e : Raise} (h : fetchDecode s = .error e) :
    e.kind ≠ .unsupportedALUOperation := by
  rcases fetchDecode_error_cases h with ⟨-, rfl⟩ | ⟨-, d, -, rfl⟩
  · simp [outOfBounds]
  · exact decodeRaise_kind_ne_unsupported d

/-- Settles O29: a step that ends in Aborted took its fault from fetch or decode, since no instruction's meaning aborts. -/
theorem unsupportedAluOperationIsNeverTaken : Obligations.UnsupportedAluOperationIsNeverTaken := by
  refine ⟨fun _ _ _ => rfl, fun s t r h ht => ?_⟩
  rcases step_status_cases h with ⟨e, he, rfl⟩ | ⟨-, hhalt⟩ | hrun
  · cases ht
    exact fetchDecode_kind_ne_unsupported he
  · rw [ht] at hhalt; cases hhalt
  · rw [ht] at hrun; cases hrun

end Sys2Proof.Machine
end

section
/-! PROOFS: the stack (spec/42_stack.md). What a push and a pop leave, said once for PUSH, CALL and POP; then the statements
about one instruction, and the two about last in, first out. -/

namespace Sys2Proof.Machine

/-! ## SP up and down -/

theorem pushAddr_eq (s : State) : pushAddr s = ((sp s).toNat + 255) % 256 := spDown_toNat s

/-- Where SP stands one below that of `s`, stepping it up gives the SP of `s` back, through the wrap too (R125). -/
theorem spUp_of_sp_eq_spDown {s t : State} (h : sp t = spDown s) : spUp t = sp s := by
  have hlt := (sp s).isLt
  apply BitVec.eq_of_toNat_eq
  rw [spUp_toNat, h, spDown_toNat]
  omega

/-- The byte at SP is not the one a push writes. -/
theorem sp_ne_pushAddr (s : State) : (sp s).toNat ≠ pushAddr s := by
  have hlt := (sp s).isLt
  rw [pushAddr_eq]
  omega

theorem writeReg_writeReg (r : Reg) (v w : Byte) (s : State) : writeReg r w (writeReg r v s) = writeReg r w s := by
  simp [writeReg]

theorem writeReg_readReg (r : Reg) (s : State) : writeReg r (readReg r s) s = s := by
  simp [writeReg, readReg, Vector.get_eq_getElem]

/-! ## What a push leaves -/

/-- The state a push of `v` answers (R120). -/
def pushed (v : Byte) (s : State) : State :=
  setByte (pushAddr s) v (writeReg Config.spIndex (spDown s) s)

theorem push_eq_pushed (v : Byte) (s : State) : push v s = .ok (pushed v s) := push_eq v s

/-- `t` comes from `s` by a push of `v` and a change of pc: SP is one lower, the byte there is `v`, and the rest is as
before. -/
structure PushEffect (v : Byte) (s t : State) : Prop where
  stackPointer : sp t = spDown s
  stored : Memory.get t.mem (pushAddr s) = v
  regs : RegsSameExcept [7] s t
  mem : MemSameExcept [pushAddr s] s t
  flags : t.flags = s.flags
  status : t.status = s.status
  out : t.out = s.out

theorem pushEffect_pushed (v : Byte) (s : State) : PushEffect v s (pushed v s) where
  stackPointer := readReg_writeReg_self _ _ s
  stored := Memory.get_set_self _ _ v
  regs := regsSameExcept_writeReg _ _ s
  mem := memSameExcept_setByte _ v s
  flags := rfl
  status := rfl
  out := rfl

theorem PushEffect.setPc {v : Byte} {s t : State} (h : PushEffect v s t) (p : PcWord) : PushEffect v s (setPc p t) where
  stackPointer := h.stackPointer
  stored := h.stored
  regs := h.regs
  mem := h.mem
  flags := h.flags
  status := h.status
  out := h.out

theorem PushEffect.stackPointer_toNat {v : Byte} {s t : State} (h : PushEffect v s t) :
    (readReg 7 t).toNat = pushAddr s :=
  congrArg BitVec.toNat h.stackPointer

theorem exec_push_effect (A : Reg) (s : State) :
    ∃ t, exec (.push (regByte A)) s = .next t ∧ PushEffect (readReg A s) s t ∧ t.pc = pcPlus 2 s :=
  ⟨_, exec_push A s, (pushEffect_pushed _ s).setPc _, rfl⟩

theorem exec_call_effect (A : Reg) (s : State) :
    ∃ t, exec (.call (regByte A)) s = .next t ∧ PushEffect (BitVec.ofNat 8 (s.pc.toNat + 2)) s t ∧
      t.pc.toNat = (readReg A t).toNat :=
  ⟨_, exec_call A s, (pushEffect_pushed _ s).setPc _, targetOf_toNat _⟩

/-! ## What a pop leaves -/

/-- The state a pop answers (R121). -/
def popped (s : State) : State := writeReg Config.spIndex (spUp s) s

theorem pop_eq_popped (s : State) : pop s = .ok (Memory.get s.mem (sp s).toNat, popped s) := pop_eq s

/-- `t` comes from `s` by a pop into `A` and a change of pc: `A` holds the byte at SP, SP is one higher unless it is `A`,
and the rest is as before. -/
structure PopEffect (A : Reg) (s t : State) : Prop where
  loaded : readReg A t = Memory.get s.mem (sp s).toNat
  stackPointer : A ≠ 7 → sp t = spUp s
  regs : RegsSameExcept [A, 7] s t
  mem : t.mem = s.mem
  flags : t.flags = s.flags
  status : t.status = s.status
  out : t.out = s.out

theorem regsSameExcept_writeReg_popped (A : Reg) (v : Byte) (s : State) :
    RegsSameExcept [A, 7] s (writeReg A v (popped s)) := by
  intro r hr
  obtain ⟨hA, h7⟩ := List.ne_and_not_mem_of_not_mem_cons hr
  rw [readReg_writeReg_ne _ _ hA]
  exact regsSameExcept_writeReg 7 _ s r h7

theorem exec_pop_effect (A : Reg) (s : State) :
    ∃ t, exec (.pop (regByte A)) s = .next t ∧ PopEffect A s t ∧ t.pc = pcPlus 2 s := by
  refine ⟨_, exec_pop A s, ?_, rfl⟩
  exact {
    loaded := readReg_writeReg_self A _ _
    stackPointer := fun hA => (readReg_writeReg_ne _ _ hA.symm).trans (readReg_writeReg_self _ _ s)
    regs := regsSameExcept_writeReg_popped A _ s
    mem := rfl
    flags := rfl
    status := rfl
    out := rfl }

/-! ## The instructions -/

/-- Settles O11: a push of the register, then pc by 2. -/
theorem pushStoresBelowTheStackPointer : Obligations.PushStoresBelowTheStackPointer := by
  intro A s hpc
  obtain ⟨t, ht, heff, hpc'⟩ := exec_push_effect A s
  exact ⟨rfl, decode_push A, t, ht, pushAddr_eq s, heff.stackPointer_toNat, heff.stored,
    by rw [hpc', pcPlus_toNat (by omega)], heff.regs, heff.mem, heff.flags, heff.status, heff.out⟩

/-- Settles O12: a pop into the register, then pc by 2. -/
theorem popLoadsFromTheStackPointer : Obligations.PopLoadsFromTheStackPointer := by
  intro A s hpc
  obtain ⟨t, ht, heff, hpc'⟩ := exec_pop_effect A s
  refine ⟨rfl, fun x => decode_of_lookup (lookup_pop _ _), t, ht, heff.loaded, fun hA => ?_,
    by rw [hpc', pcPlus_toNat (by omega)], heff.regs, fun a _ => by rw [heff.mem], heff.flags, heff.status, heff.out⟩
  exact (congrArg BitVec.toNat (heff.stackPointer hA)).trans (spUp_toNat s)

/-- Settles O13: a push of the return address; the target is read from the registers after it. -/
theorem callPushesTheReturnAddress : Obligations.CallPushesTheReturnAddress := by
  intro A s hpc
  obtain ⟨t, ht, heff, htarget⟩ := exec_call_effect A s
  refine ⟨rfl, fun x => decode_of_lookup (lookup_call _ _), t, ht, pushAddr_eq s, heff.stackPointer_toNat, ?_,
    fun hA => ?_, ?_, heff.regs, heff.mem, heff.flags, heff.status, heff.out⟩
  · rw [heff.stored, BitVec.toNat_ofNat]
    omega
  · rw [htarget, heff.regs A (by simpa using hA)]
  · rintro rfl
    exact htarget.trans (heff.stackPointer_toNat.trans (pushAddr_eq s))

/-- Settles O14: a pop of which the byte goes to pc. -/
theorem retPopsTheProgramCounter : Obligations.RetPopsTheProgramCounter := by
  intro s
  have hsp : sp (popped s) = spUp s := readReg_writeReg_self _ _ s
  exact ⟨rfl, fun x y => decode_of_lookup (lookup_ret _ _), _, exec_ret s, targetOf_toNat _,
    (congrArg BitVec.toNat hsp).trans (spUp_toNat s), regsSameExcept_writeReg 7 _ s, fun _ _ => rfl, rfl, rfl, rfl⟩

/-! ## Last in, first out -/

/-- A pop after a push is back in all but memory, SP included. -/
theorem popped_pushed (v : Byte) (s : State) : popped (pushed v s) = { s with mem := (pushed v s).mem } := by
  have hup : spUp (pushed v s) = sp s := spUp_of_sp_eq_spDown (pushEffect_pushed v s).stackPointer
  calc popped (pushed v s)
      = setByte (pushAddr s) v (writeReg Config.spIndex (sp s) (writeReg Config.spIndex (spDown s) s)) := by
        rw [popped, hup]; rfl
    _ = setByte (pushAddr s) v s := by rw [writeReg_writeReg, sp, writeReg_readReg]

/-- The state that pushing a list answers. -/
def pushedAll (vs : List Byte) (s : State) : State := vs.foldl (fun t v => pushed v t) s

theorem pushedAll_cons (v : Byte) (vs : List Byte) (s : State) :
    pushedAll (v :: vs) s = pushedAll vs (pushed v s) := rfl

theorem pushAll_eq_pushedAll (vs : List Byte) (s : State) : pushAll vs s = .ok (pushedAll vs s) := by
  induction vs generalizing s with
  | nil => rfl
  | cons v vs ih => simp only [pushAll, push_eq_pushed, ih, pushedAll_cons]

/-- Pushing fewer than 256 bytes leaves the byte at SP, and those above it which the stack does not wrap round to. -/
theorem get_pushedAll {vs : List Byte} {k : Nat} (s : State) (h : k + vs.length < 256) :
    Memory.get (pushedAll vs s).mem (((sp s).toNat + k) % 256) = Memory.get s.mem (((sp s).toNat + k) % 256) := by
  induction vs generalizing s k with
  | nil => rfl
  | cons v vs ih =>
    rw [List.length_cons] at h
    have heff := pushEffect_pushed v s
    have haddr : ((sp (pushed v s)).toNat + (k + 1)) % 256 = ((sp s).toNat + k) % 256 := by
      rw [heff.stackPointer, spDown_toNat]; omega
    have hne : ((sp s).toNat + k) % 256 ≠ pushAddr s := by
      rw [pushAddr_eq]; omega
    have htail := ih (pushed v s) (k := k + 1) (by omega)
    rw [haddr] at htail
    exact htail.trans (heff.mem _ (by simpa using hne))

/-- One pop more, after the others. -/
theorem popAll_succ {n : Nat} {s t : State} {vs : List Byte} (h : popAll n s = .ok (vs, t)) :
    popAll (n + 1) s = .ok (vs ++ [Memory.get t.mem (sp t).toNat], popped t) := by
  induction n generalizing s vs with
  | zero =>
    cases h
    simp only [popAll, pop_eq_popped, List.nil_append]
  | succ n ih =>
    rw [popAll, pop_eq_popped] at h
    cases hrest : popAll n (popped s) with
    | error e => simp only [hrest] at h; cases h
    | ok r =>
      simp only [hrest] at h
      cases h
      rw [popAll, pop_eq_popped]
      simp only [ih hrest, List.cons_append]

/-- The byte pushed first lies at SP again when those pushed after it are popped, so it is popped last. -/
theorem popAll_pushedAll {vs : List Byte} (s : State) (h : vs.length ≤ 256) :
    popAll vs.length (pushedAll vs s) = .ok (vs.reverse, { s with mem := (pushedAll vs s).mem }) := by
  induction vs generalizing s with
  | nil => rfl
  | cons v vs ih =>
    rw [List.length_cons] at h
    have hrest := ih (pushed v s) (by omega)
    have hkeep := get_pushedAll (k := 0) (pushed v s) (show 0 + vs.length < 256 by omega)
    rw [pushedAll_cons]
    generalize pushedAll vs (pushed v s) = t at hrest hkeep ⊢
    have hfirst : Memory.get t.mem (sp (pushed v s)).toNat = v := by
      rw [Nat.add_zero, Nat.mod_eq_of_lt (sp (pushed v s)).isLt] at hkeep
      rw [hkeep, (pushEffect_pushed v s).stackPointer]
      exact (pushEffect_pushed v s).stored
    have hback : popped { pushed v s with mem := t.mem } = { s with mem := t.mem } :=
      congrArg (fun u : State => { u with mem := t.mem }) (popped_pushed v s)
    calc popAll (vs.length + 1) t
        = .ok (vs.reverse ++ [Memory.get t.mem (sp (pushed v s)).toNat], popped { pushed v s with mem := t.mem }) :=
          popAll_succ hrest
      _ = .ok ((v :: vs).reverse, { s with mem := t.mem }) := by rw [hfirst, hback, List.reverse_cons]

/-- Settles O33, by the closed forms of pushing and of popping a list. -/
theorem stackIsLastInFirstOut : Obligations.StackIsLastInFirstOut :=
  fun vs s h => ⟨_, _, pushAll_eq_pushedAll vs s, popAll_pushedAll s h, rfl⟩

theorem execSeq_cons {i : Instr} {s t : State} (h : exec i s = .next t) (is : List Instr) :
    execSeq (i :: is) s = execSeq is t := by
  simp only [execSeq, h]

/-- Settles O34: the first pop reads what the second PUSH stored, and SP is then where the first PUSH left it. -/
theorem pushPushPopPop : Obligations.PushPushPopPop := by
  intro A B C D s _ hB hC hD
  obtain ⟨t₁, h₁, pushA, -⟩ := exec_push_effect A s
  obtain ⟨t₂, h₂, pushB, -⟩ := exec_push_effect B t₁
  obtain ⟨t₃, h₃, popC, -⟩ := exec_pop_effect C t₂
  obtain ⟨t₄, h₄, popD, -⟩ := exec_pop_effect D t₃
  have hsp₃ : sp t₃ = sp t₁ := (popC.stackPointer hC).trans (spUp_of_sp_eq_spDown pushB.stackPointer)
  have hsp₄ : sp t₄ = sp s :=
    (popD.stackPointer hD).trans (spUp_of_sp_eq_spDown (hsp₃.trans pushA.stackPointer))
  refine ⟨t₄, ?_, ?_, fun hCD => ?_, fun r hr => ?_, ?_⟩
  · rw [execSeq_cons h₁, execSeq_cons h₂, execSeq_cons h₃, execSeq_cons h₄, execSeq]
  · calc readReg D t₄
        = Memory.get t₂.mem (sp t₁).toNat := by rw [popD.loaded, popC.mem, hsp₃]
      _ = Memory.get t₁.mem (sp t₁).toNat := pushB.mem _ (by simpa using sp_ne_pushAddr t₁)
      _ = readReg A s := by rw [pushA.stackPointer]; exact pushA.stored
  · calc readReg C t₄
        = readReg C t₃ := popD.regs C (by simp [hCD, hC])
      _ = Memory.get t₂.mem (spDown t₁).toNat := by rw [popC.loaded, pushB.stackPointer]
      _ = readReg B t₁ := pushB.stored
      _ = readReg B s := pushA.regs B (by simpa using hB)
  · by_cases h7 : r = 7
    · rw [h7]; exact hsp₄
    · simp only [List.mem_cons, List.not_mem_nil, or_false, not_or] at hr
      obtain ⟨hrC, hrD⟩ := hr
      rw [popD.regs r (by simp [hrD, h7]), popC.regs r (by simp [hrC, h7]), pushB.regs r (by simpa using h7),
        pushA.regs r (by simpa using h7)]
  · rw [popD.status, popC.status, pushB.status, pushA.status]

end Sys2Proof.Machine
end

section
/-! PROOFS: control flow (spec/43_control_flow.md). What an instruction that only sets pc leaves, said once for JMP, JEQ and
JNE; then the statements, and the round trip of CALL and RET. -/

namespace Sys2Proof.Machine

/-! ## The jumps -/

/-- An instruction whose whole effect is to set pc: completion and frame. -/
theorem answers_of_setPc {i : Instr} {p : PcWord} {n : Nat} {s : State} (h : exec i s = .next (setPc p s))
    (hp : p.toNat = n) :
    ∃ t, exec i s = .next t ∧ t.pc.toNat = n ∧
      RegsSameExcept [] s t ∧ MemSameExcept [] s t ∧ t.flags = s.flags ∧ t.status = s.status ∧ t.out = s.out :=
  ⟨_, h, hp, fun _ _ => rfl, fun _ _ => rfl, rfl, rfl, rfl⟩

theorem setPc_self (s : State) : setPc s.pc s = s := rfl

theorem targetOf_eq_of_toNat_eq {b : Byte} {p : PcWord} (h : b.toNat = p.toNat) : targetOf b = p :=
  BitVec.eq_of_toNat_eq ((targetOf_toNat b).trans h)

/-- Settles O15: pc becomes the register's number, and where that is pc already the state stays. -/
theorem jmpGoesToTheRegister : Obligations.JmpGoesToTheRegister := by
  refine fun A s => ⟨rfl, fun x => decode_of_lookup (lookup_jmp _ _),
    answers_of_setPc (exec_jmp A s) (targetOf_toNat _), fun hself => ?_⟩
  rw [exec_jmp, targetOf_eq_of_toNat_eq hself, setPc_self]

/-- Settles O16, by the two values of E; the bad byte is a case of O21. -/
theorem jeqJumpsOnlyOnEqual : Obligations.JeqJumpsOnlyOnEqual := by
  refine fun s hpc => ⟨fun A => ⟨rfl, fun x => decode_of_lookup (lookup_jeq _ _),
    answers_of_setPc (exec_jeq A s) ?_⟩, fun a ha => (invalidRegisterIsTaken a 0 s).1 ha _ (by simp)⟩
  cases s.flags.e with
  | true => exact targetOf_toNat (readReg A s)
  | false => exact pcPlus_toNat (by omega)

/-- Settles O17, by the two values of E; the bad byte is a case of O21. -/
theorem jneJumpsOnlyOnNotEqual : Obligations.JneJumpsOnlyOnNotEqual := by
  refine fun s hpc => ⟨fun A => ⟨rfl, fun x => decode_of_lookup (lookup_jne _ _),
    answers_of_setPc (exec_jne A s) ?_⟩, fun a ha => (invalidRegisterIsTaken a 0 s).1 ha _ (by simp)⟩
  cases s.flags.e with
  | true => exact pcPlus_toNat (by omega)
  | false => exact targetOf_toNat (readReg A s)

/-! ## CALL, then RET -/

/-- Settles O35: RET pops the byte that CALL pushed, and steps SP up from one below where it was. -/
theorem callThenRetRoundTrips : Obligations.CallThenRetRoundTrips := by
  intro A s t u hpc hcall hsp hbyte
  obtain ⟨t', ht', heff, -⟩ := exec_call_effect A s
  obtain rfl : t' = t := Host.Outcome.next.inj (ht'.symm.trans hcall)
  have hspu : sp u = spDown s := hsp.trans heff.stackPointer
  have hret : Memory.get u.mem (sp u).toNat = BitVec.ofNat 8 (s.pc.toNat + 2) := by
    calc Memory.get u.mem (sp u).toNat
        = Memory.get u.mem (sp t').toNat := congrArg (fun b : Byte => Memory.get u.mem b.toNat) hsp
      _ = Memory.get t'.mem (sp t').toNat := hbyte
      _ = Memory.get t'.mem (pushAddr s) := congrArg (Memory.get t'.mem) heff.stackPointer_toNat
      _ = BitVec.ofNat 8 (s.pc.toNat + 2) := heff.stored
  refine ⟨_, exec_ret u, ?_, ?_⟩
  · rw [setPc_pc, targetOf_toNat, hret, BitVec.toNat_ofNat]
    omega
  · exact (readReg_writeReg_self _ _ u).trans (spUp_of_sp_eq_spDown hspu)

end Sys2Proof.Machine
end

section
/-! PROOFS: load, output and halt (spec/44_load_output_halt.md). Each statement is read off from the instruction's equation;
HLT also from there being no step in Halted, and from the fetch fault above address 253. -/

namespace Sys2Proof.Machine

/-- Settles O18: the instruction writes one register, and the byte it writes is the immediate. -/
theorem ldiLoadsTheImmediate : Obligations.LdiLoadsTheImmediate := by
  intro A imm s hpc
  have hloaded : readReg A (setPc (pcPlus 3 s) (writeReg A imm s)) = imm := by
    rw [readReg_setPc, readReg_writeReg_self]
  exact ⟨rfl, decode_of_lookup (lookup_ldi _ _), _, exec_ldi A imm s, hloaded, pcPlus_toNat (by omega),
    regsSameExcept_writeReg A imm s, fun _ _ => rfl, rfl, rfl, rfl⟩

/-- Settles O19: apart from pc, the instruction is one `emit` of the register. -/
theorem prnEmitsTheRegister : Obligations.PrnEmitsTheRegister :=
  fun A s _ => ⟨rfl, fun _ => decode_of_lookup (lookup_prn _ _), _, exec_prn A s, emit_out (readReg A s) s,
    pcPlus_toNat (by omega), fun _ _ => rfl, fun _ _ => rfl, rfl, rfl⟩

/-! ## HLT -/

/-- At 254 and 255 the first fetch address that does not exist is 256, whatever the opcode (R87). -/
theorem step_of_pc_254_or_255 {s : State} (hrun : s.status = .running) (hpc : s.pc.toNat = 254 ∨ s.pc.toNat = 255) :
    step s = .next (abortedWith .outOfBoundsMemoryAccess 256 s) := by
  have hmax : max 256 s.pc.toNat = 256 := by omega
  rw [fetchAboveTheTopFaults s hrun (by omega), hmax]

/-- Settles O20: up to 253 the answer is in Halted, which has no step; at 254 and 255 the fetch faults before decode. -/
theorem hltHaltsAndAdvances : Obligations.HltHaltsAndAdvances := by
  refine fun s => ⟨rfl, fun _ _ => decode_of_lookup (lookup_hlt _ _), fun hpc => ?_,
    fun hrun htop _ => step_of_pc_254_or_255 hrun htop⟩
  have hhalted : (setPc (pcPlus 1 s) (halt s)).status = .halted := by rw [setPc_status, halt_status]
  exact ⟨_, exec_hlt s, hhalted, pcPlus_toNat (by omega), step_of_halted hhalted,
    fun _ _ => rfl, fun _ _ => rfl, rfl, rfl⟩

end Sys2Proof.Machine
end

section
/-! PROOFS: exceptions (spec/60_exceptions.md). A step that ends in Aborted took an exception of fetch or decode in the state
it began in; that the fault is precise is read off from that. -/

namespace Sys2Proof.Machine

/-- Only an exception of fetch or decode leads to Aborted, and it is taken in the state at the start of the step (R181). -/
theorem takeException_of_step_aborted {s t : State} {r : FaultRecord} (h : step s = .next t)
    (ht : t.status = .aborted r) : ∃ e, fetchDecode s = .error e ∧ t = takeException e s := by
  rcases step_status_cases h with hfault | ⟨-, hhalt⟩ | hrun
  · exact hfault
  · rw [ht] at hhalt; cases hhalt
  · rw [ht] at hrun; cases hrun

theorem takeException_of_status_aborted {e : Raise} {s : State} {r : FaultRecord}
    (h : (takeException e s).status = .aborted r) :
    takeException e s = { s with status := .aborted r } ∧ r.pc = s.pc := by
  rw [takeException_status] at h
  cases h
  exact ⟨rfl, rfl⟩

/-- Settles O27: the state the step answers is an exception taken in the state before. -/
theorem faultsArePrecise : Obligations.FaultsArePrecise := by
  intro s t r h ht
  obtain ⟨e, -, rfl⟩ := takeException_of_step_aborted h ht
  exact takeException_of_status_aborted ht

end Sys2Proof.Machine
end

section
/-! PROOFS: reset and loading (spec/70_reset_and_hazards.md). `load` by the image's length, and what a read of the loaded
memory gives. -/

namespace Sys2Proof.Machine

theorem load_of_le {image : List Byte} (h : image.length ≤ 256) :
    load image = some { State.reset with mem := Memory.store [] 0 image } := if_pos h

theorem load_of_gt {image : List Byte} (h : 256 < image.length) : load image = none := if_neg (Nat.not_le.mpr h)

/-- Storing an image that fits drops no byte, and the addresses above it read as unlisted ones (D7). -/
theorem Memory.get_store_image {image : List Byte} (hfits : image.length ≤ 256) (a : Nat) :
    Memory.get (Memory.store [] 0 image) a = if h : a < image.length then image[a] else 0 := by
  rw [Memory.get_store]
  split
  · next hin =>
    have ha : a < image.length := by omega
    rw [dif_pos ha, Nat.sub_zero, List.getD_eq_getElem image 0 ha]
  · next hout =>
    have ha : ¬ a < image.length := by omega
    rw [dif_neg ha]
    rfl

/-- Settles O42: an image that fits is stored from address 0 into the reset state's empty memory. -/
theorem loadPlacesTheImage : Obligations.LoadPlacesTheImage := fun image =>
  ⟨fun hfits => ⟨_, load_of_le hfits, rfl, Memory.wf_store Memory.wf_nil 0 image, Memory.get_store_image hfits⟩,
    load_of_gt⟩

end Sys2Proof.Machine
end
